-- ==== Sys2Proof/Word.lean ====
section
/-! DEFINITION. The data units of the core: the trit (10_state.md R10) and the 9-trit word (R11).
A trit is an abstract three-valued element: no coding of it on wires exists in the model
(92_eei_decisions.md D1), so no behaviour can depend on one. -/

namespace Sys2Proof

/-- A trit (10_state.md R10): negative, zero or positive, written `-`, `o`, `+`. -/
inductive Trit where
  | neg
  | zero
  | pos
deriving DecidableEq, Repr

/-- The integer value of a trit: -1, 0, +1 (10_state.md R10). -/
def Trit.val : Trit → Int
  | .neg => -1
  | .zero => 0
  | .pos => 1

/-- A word (10_state.md R11): nine trits, index 0 the most significant (00_scope.md section 5). -/
@[ext]
structure Word where
  t0 : Trit
  t1 : Trit
  t2 : Trit
  t3 : Trit
  t4 : Trit
  t5 : Trit
  t6 : Trit
  t7 : Trit
  t8 : Trit
deriving DecidableEq, Repr

/-- The zero word `ooooooooo`. -/
def Word.zero : Word :=
  ⟨.zero, .zero, .zero, .zero, .zero, .zero, .zero, .zero, .zero⟩

/-- `w.t[i]` for i = 0 to 8 (00_scope.md section 5). There is no trit beyond index 8: a zero trit stands there,
as for a shift that brings trits in from outside the word. -/
def Word.trit (w : Word) : Nat → Trit
  | 0 => w.t0
  | 1 => w.t1
  | 2 => w.t2
  | 3 => w.t3
  | 4 => w.t4
  | 5 => w.t5
  | 6 => w.t6
  | 7 => w.t7
  | 8 => w.t8
  | _ => .zero

/-- The word whose trit at index i is `f i`. -/
def Word.ofFn (f : Nat → Trit) : Word :=
  ⟨f 0, f 1, f 2, f 3, f 4, f 5, f 6, f 7, f 8⟩

/-- The nine trits, most significant first. -/
def Word.trits (w : Word) : List Trit :=
  [w.t0, w.t1, w.t2, w.t3, w.t4, w.t5, w.t6, w.t7, w.t8]

end Sys2Proof
end

