-- ==== Sys2Proof/Syntax.lean ====
section
/-! DEFINITION. The instructions: registers, opcodes, addressing modes, the decoded record of
30_encoding.md R50 and the instruction type `Instr`, one constructor per row of
spec/opcode_table.json (22 opcodes in 3 addressing modes). The error names of 60_exceptions.md R200
stand here too, since the codecs answer with them. -/

namespace Sys2Proof

/-- The nine registers (10_state.md R13), each addressed by a small signed selector. -/
inductive Reg where
  | r0
  | r1
  | r2
  | r3
  | r4
  | r5
  | r6
  | ra
  | sp
deriving DecidableEq, Repr

/-- The three addressing modes (30_encoding.md R50, R58 to R60). -/
inductive Mode where
  | registerRegister
  | shortImmediate
  | wordImmediate
deriving DecidableEq, Repr

/-- The 22 defined opcodes (30_encoding.md R54). -/
inductive Opcode where
  | add
  | addc
  | mul
  | div
  | mod
  | neg
  | min
  | max
  | con
  | any
  | rsh
  | ush
  | nop
  | mov
  | cmp
  | jmp
  | beq
  | bgt
  | blt
  | jal
  | lod
  | xor
deriving DecidableEq, Repr

/-- The seven error names (60_exceptions.md R200). They carry no number. -/
inductive ErrorKind where
  /-- `stringToWord` on a malformed sign string (R210). -/
  | formatError
  /-- An integer outside the representable range at the codec or the host port (R209). -/
  | rangeError
  /-- Assembler: wrong operand count or shape, unknown mnemonic or register (R213). -/
  | argumentError
  /-- Assembler: a label that is never bound (R213). -/
  | undeclaredLabelError
  /-- An illegal opcode or addressing-mode field (R202). The only run-time error. -/
  | decodeError
  /-- A malformed ALU operand: unreachable, an operand is a word by construction (R212). -/
  | invalidOperand
  /-- `encode` on a record that has no words (R211). -/
  | encodeError
deriving DecidableEq, Repr

/-- The z of a record (30_encoding.md R50): "full-range immediate or resolved address", or a label that has
no address yet, which `encode` must refuse (R65). -/
inductive ZField where
  | word (w : Word)
  | unresolvedLabel
deriving DecidableEq, Repr

/-- The decoded instruction record of 30_encoding.md R50, as raw numbers. Not every record is an
instruction: `encode` checks it (R65, `Record.wf`). -/
structure Record where
  opcode : Int
  mode : Mode
  x : Int
  y : Int
  z : Option ZField
deriving DecidableEq, Repr

/-- What the first word of an instruction says (30_encoding.md R63, `decode1`): opcode, mode, and the x and y
fields as they stand. -/
structure Header where
  opcode : Opcode
  mode : Mode
  x : Int
  y : Int
deriving DecidableEq, Repr

/-- An instruction: one constructor per row of spec/opcode_table.json. The suffix is the row's addressing
mode: RR = REGISTER_REGISTER, SI = SHORT_IMMEDIATE, WI = WORD_IMMEDIATE. A constructor holds the fields
the row uses; the fields the row ignores (30_encoding.md R62) are not held. `x` is the register the x
field selects, `y` the register the y field selects, `imm` the short immediate (the value of the y
field), `z` the second word. -/
inductive Instr where
  | addRR (x : Reg) (y : Reg)
  | addSI (x : Reg) (imm : Int)
  | addWI (x : Reg) (z : Word)
  | addcRR (x : Reg) (y : Reg)
  | addcSI (x : Reg) (imm : Int)
  | addcWI (x : Reg) (z : Word)
  | mulRR (x : Reg) (y : Reg)
  | mulSI (x : Reg) (imm : Int)
  | mulWI (x : Reg) (z : Word)
  | divRR (x : Reg) (y : Reg)
  | divSI (x : Reg) (imm : Int)
  | divWI (x : Reg) (z : Word)
  | modRR (x : Reg) (y : Reg)
  | modSI (x : Reg) (imm : Int)
  | modWI (x : Reg) (z : Word)
  | negRR (x : Reg) (y : Reg)
  | negSI (x : Reg) (imm : Int)
  | negWI (x : Reg) (z : Word)
  | minRR (x : Reg) (y : Reg)
  | minSI (x : Reg) (imm : Int)
  | minWI (x : Reg) (z : Word)
  | maxRR (x : Reg) (y : Reg)
  | maxSI (x : Reg) (imm : Int)
  | maxWI (x : Reg) (z : Word)
  | conRR (x : Reg) (y : Reg)
  | conSI (x : Reg) (imm : Int)
  | conWI (x : Reg) (z : Word)
  | anyRR (x : Reg) (y : Reg)
  | anySI (x : Reg) (imm : Int)
  | anyWI (x : Reg) (z : Word)
  | rshRR (x : Reg) (y : Reg)
  | rshSI (x : Reg) (imm : Int)
  | rshWI (x : Reg) (z : Word)
  | ushRR (x : Reg) (y : Reg)
  | ushSI (x : Reg) (imm : Int)
  | ushWI (x : Reg) (z : Word)
  | nopRR
  | nopSI
  | nopWI (z : Word)
  | movRR (x : Reg) (y : Reg)
  | movSI (x : Reg) (imm : Int)
  | movWI (x : Reg) (z : Word)
  | cmpRR (x : Reg) (y : Reg)
  | cmpSI (x : Reg) (imm : Int)
  | cmpWI (x : Reg) (z : Word)
  | jmpRR (y : Reg)
  | jmpSI (imm : Int)
  | jmpWI (z : Word)
  | beqRR (y : Reg)
  | beqSI (imm : Int)
  | beqWI (z : Word)
  | bgtRR (y : Reg)
  | bgtSI (imm : Int)
  | bgtWI (z : Word)
  | bltRR (y : Reg)
  | bltSI (imm : Int)
  | bltWI (z : Word)
  | jalRR (y : Reg)
  | jalSI (imm : Int)
  | jalWI (z : Word)
  | lodRR (x : Reg) (y : Reg)
  | lodSI (x : Reg) (imm : Int)
  | lodWI (x : Reg) (z : Word)
  | xorRR (x : Reg) (y : Reg)
  | xorSI (x : Reg) (imm : Int)
  | xorWI (x : Reg) (z : Word)
deriving DecidableEq, Repr

end Sys2Proof
end

