-- ==== Sys2Proof/Config.lean ====
section
/-! DEFINITION. The parameters of the core (00_scope.md R5). The parameters the spec marks OPEN are arguments of
the definitions that use them; their default values stand here. No parameter is a free value: the spec
leaves no result open (93_implementation_defined.md). TRIT_ENCODING has no counterpart (a trit is abstract,
92_eei_decisions.md D1) and HOST_REGION_MAP is empty (D37): no address is special to the core. -/

namespace Sys2Proof.Config

/-- TRITS_PER_WORD. -/
abbrev tritsPerWord : Nat := 9

/-- WORD_VALUES = 3^9, the number of words and of memory cells (MEM_WORDS). -/
abbrev wordValues : Int := 19683

/-- WORD_MAX; WORD_MIN is its negation. -/
abbrev wordMax : Int := 9841

/-- SHORT_IMM_MAX (93_implementation_defined.md U9: fixed, not a parameter). -/
abbrev shortImmMax : Int := 4

/-- RESET_PC. -/
abbrev resetPc : Int := 0

/-- The opcode values that spell no instruction in the base machine (30_encoding.md R55), one of which
the parameter STA_OPCODE may claim (43_data_movement.md R164). -/
inductive FreeOpcode where
  | minus12
  | plus10
  | plus11
  | plus12
  | plus13
deriving DecidableEq, Repr

/-- The opcode value of a free slot. -/
def FreeOpcode.code : FreeOpcode → Int
  | .minus12 => -12
  | .plus10 => 10
  | .plus11 => 11
  | .plus12 => 12
  | .plus13 => 13

/-- STA_OPCODE (OPEN, 92_eei_decisions.md D14): none, the base machine has no store instruction. -/
def staOpcode : Option FreeOpcode := none

/-- ASM_MNEMONIC_CASE_INSENSITIVE (OPEN, 92_eei_decisions.md D31): false. -/
def asmMnemonicCaseInsensitive : Bool := false

/-- INT_PORT_WIDTH (OPEN, 92_eei_decisions.md D32): 15 bits is the least width of a binary integer port. -/
abbrev intPortWidth : Nat := 15

end Sys2Proof.Config
end

