-- ==== Sys2Proof/Machine/Codec.lean ====
section
/-! DEFINITION. The numeral codec (40_numeral_codec.md): a word, its sign string and its integer; sub-fields as
trit sequences; and the notation `val`, `wrap`, `ext9`, `sgn` of 00_scope.md section 5. Every function is
pure and total; an error is an answer, never a truncation. -/

namespace Sys2Proof

/-- 40_numeral_codec.md R93, `wordToInt`: the sum of trit[i] · 3^(8-i). -/
def Word.val (w : Word) : Int :=
  6561 * w.t0.val + 2187 * w.t1.val + 729 * w.t2.val + 243 * w.t3.val + 81 * w.t4.val
    + 27 * w.t5.val + 9 * w.t6.val + 3 * w.t7.val + w.t8.val

/-- `wrap(n)` (00_scope.md section 5): the value of the low nine trits of n. -/
def wrap (n : Int) : Int :=
  (n + Config.wordMax) % Config.wordValues - Config.wordMax

/-- `sgn(n)` as a trit (00_scope.md section 5). -/
def sgn (n : Int) : Trit :=
  if n < 0 then .neg else if n = 0 then .zero else .pos

/-- The balanced remainder of n by 3 (40_numeral_codec.md R95: r = ((n + 1) mod 3) - 1). -/
def balRem (n : Int) : Trit :=
  if (n + 1) % 3 = 0 then .neg else if (n + 1) % 3 = 1 then .zero else .pos

/-- What is left of n after its balanced remainder (40_numeral_codec.md R95: (n - r) / 3, exact). -/
def balQuot (n : Int) : Int :=
  (n - (balRem n).val) / 3

/-- The k least significant trits of the balanced-ternary numeral of n, most significant first: the loop of
40_numeral_codec.md R95 run k times. -/
def lowTrits : Nat → Int → List Trit
  | 0, _ => []
  | k + 1, n => lowTrits k (balQuot n) ++ [balRem n]

/-- 40_numeral_codec.md R96: the value of a trit sequence, most significant first. -/
def digitsToInt (ds : List Trit) : Int :=
  ds.foldl (fun acc t => 3 * acc + t.val) 0

/-- `ext9(f)` (00_scope.md section 5): a trit sequence padded with zero trits at the most significant end. Only the
last nine trits of a longer sequence are kept. -/
def ext9 (ds : List Trit) : Word :=
  let r := ds.reverse
  Word.ofFn fun i => r.getD (8 - i) .zero

/-- The word of the low nine trits of n: `word(wrap(n))`, and `word(n)` when n is in range. -/
def wordOf (n : Int) : Word :=
  ext9 (lowTrits Config.tritsPerWord n)

/-- 40_numeral_codec.md R94: an integer outside -9841 to +9841 is refused, never truncated. -/
def intToWord (n : Int) : Except ErrorKind Word :=
  if -Config.wordMax ≤ n ∧ n ≤ Config.wordMax then .ok (wordOf n) else .error .rangeError

/-- (3^k - 1)/2, the greatest value of k trits (10_state.md R12). -/
def maxOfWidth (k : Nat) : Int :=
  ((3 : Int) ^ k - 1) / 2

/-- 40_numeral_codec.md R97: `word_k(n)`, or RangeError when n does not fit in k trits. -/
def intToDigits (n : Int) (k : Nat) : Except ErrorKind (List Trit) :=
  if -maxOfWidth k ≤ n ∧ n ≤ maxOfWidth k then .ok (lowTrits k n) else .error .rangeError

/-- The character of a trit (40_numeral_codec.md R90). -/
def Trit.char : Trit → Char
  | .neg => '-'
  | .zero => 'o'
  | .pos => '+'

/-- The trit of a character of the alphabet (40_numeral_codec.md R90); no other character stands for one. -/
def tritOfChar (c : Char) : Option Trit :=
  if c = '-' then some .neg else if c = 'o' then some .zero else if c = '+' then some .pos else none

/-- The trits of a character sequence, if every character is in the alphabet. -/
def tritsOfChars : List Char → Option (List Trit)
  | [] => some []
  | c :: cs =>
    match tritOfChar c, tritsOfChars cs with
    | some t, some ts => some (t :: ts)
    | _, _ => none

/-- 40_numeral_codec.md R91, on the characters of the string. -/
def stringToWord (s : List Char) : Except ErrorKind Word :=
  if s.length = Config.tritsPerWord then
    match tritsOfChars s with
    | some ts => .ok (ext9 ts)
    | none => .error .formatError
  else .error .formatError

/-- 40_numeral_codec.md R92: the sign string, always nine characters. -/
def wordToString (w : Word) : List Char :=
  w.trits.map Trit.char

/-- The slice `w.t[i..j]` (00_scope.md section 5), most significant trit first. -/
def Word.slice (w : Word) (i j : Nat) : List Trit :=
  (w.trits.drop i).take (j + 1 - i)

/-- 40_numeral_codec.md R99: the integer side as a two's complement port of INT_PORT_WIDTH bits or more; a
pattern outside -9841 to +9841 is RangeError. -/
def intPort {n : Nat} (b : BitVec n) : Except ErrorKind Word :=
  intToWord b.toInt

end Sys2Proof
end

