-- ==== Sys2Proof/Machine/Fields.lean ====
section
/-! DEFINITION. The numbers of the instruction fields: opcode values (30_encoding.md R54), mode codes (R56),
register selectors (10_state.md R14); and the two maps between an instruction and its fields
(30_encoding.md R50, R61, R83). -/

namespace Sys2Proof

/-- The opcode map of 30_encoding.md R54. -/
def Opcode.code : Opcode → Int
  | .add => -13
  | .addc => -11
  | .mul => -10
  | .div => -9
  | .mod => -8
  | .neg => -7
  | .min => -6
  | .max => -5
  | .con => -4
  | .any => -3
  | .rsh => -2
  | .ush => -1
  | .nop => 0
  | .mov => 1
  | .cmp => 2
  | .jmp => 3
  | .beq => 4
  | .bgt => 5
  | .blt => 6
  | .jal => 7
  | .lod => 8
  | .xor => 9

/-- All 22 opcodes. -/
def Opcode.all : List Opcode :=
  [.add, .addc, .mul, .div, .mod, .neg, .min, .max, .con, .any, .rsh,
   .ush, .nop, .mov, .cmp, .jmp, .beq, .bgt, .blt, .jal, .lod, .xor]

/-- The opcode of an opcode value; none for the five values that spell no instruction (30_encoding.md R55)
and for a number that is no value of the field. -/
def Opcode.ofCode (n : Int) : Option Opcode :=
  Opcode.all.find? fun o => decide (o.code = n)

/-- The mode codes of 30_encoding.md R56. -/
def Mode.code : Mode → Int
  | .registerRegister => 0
  | .shortImmediate => 1
  | .wordImmediate => 2

/-- The mode of a mode value; none for the six illegal values (30_encoding.md R56). -/
def Mode.ofCode (n : Int) : Option Mode :=
  if n = 0 then some .registerRegister
  else if n = 1 then some .shortImmediate
  else if n = 2 then some .wordImmediate
  else none

/-- The length of an instruction in words depends on the mode alone (30_encoding.md R51). -/
def Mode.length : Mode → Int
  | .registerRegister => 1
  | .shortImmediate => 1
  | .wordImmediate => 2

/-- The selector of a register (10_state.md R14). -/
def Reg.selector : Reg → Int
  | .r0 => -4
  | .r1 => -3
  | .r2 => -2
  | .r3 => -1
  | .r4 => 0
  | .r5 => 1
  | .r6 => 2
  | .ra => 3
  | .sp => 4

/-- The register of a selector value. The nine values of a 2-trit field name the nine registers, so no selector is
illegal (10_state.md R14); a number that no field can hold is read as the last register. -/
def Reg.ofSelector (n : Int) : Reg :=
  if n = -4 then .r0 else if n = -3 then .r1 else if n = -2 then .r2
  else if n = -1 then .r3 else if n = 0 then .r4 else if n = 1 then .r5
  else if n = 2 then .r6 else if n = 3 then .ra else .sp

/-- The fields of an instruction (30_encoding.md R50, R61): an ignored field is 0 (R62), `y` is 0 and `z` is
present exactly under WORD_IMMEDIATE. -/
def Instr.toRecord : Instr → Record
  | .addRR x y => ⟨Opcode.code .add, .registerRegister, x.selector, y.selector, none⟩
  | .addSI x imm => ⟨Opcode.code .add, .shortImmediate, x.selector, imm, none⟩
  | .addWI x z => ⟨Opcode.code .add, .wordImmediate, x.selector, 0, some (.word z)⟩
  | .addcRR x y => ⟨Opcode.code .addc, .registerRegister, x.selector, y.selector, none⟩
  | .addcSI x imm => ⟨Opcode.code .addc, .shortImmediate, x.selector, imm, none⟩
  | .addcWI x z => ⟨Opcode.code .addc, .wordImmediate, x.selector, 0, some (.word z)⟩
  | .mulRR x y => ⟨Opcode.code .mul, .registerRegister, x.selector, y.selector, none⟩
  | .mulSI x imm => ⟨Opcode.code .mul, .shortImmediate, x.selector, imm, none⟩
  | .mulWI x z => ⟨Opcode.code .mul, .wordImmediate, x.selector, 0, some (.word z)⟩
  | .divRR x y => ⟨Opcode.code .div, .registerRegister, x.selector, y.selector, none⟩
  | .divSI x imm => ⟨Opcode.code .div, .shortImmediate, x.selector, imm, none⟩
  | .divWI x z => ⟨Opcode.code .div, .wordImmediate, x.selector, 0, some (.word z)⟩
  | .modRR x y => ⟨Opcode.code .mod, .registerRegister, x.selector, y.selector, none⟩
  | .modSI x imm => ⟨Opcode.code .mod, .shortImmediate, x.selector, imm, none⟩
  | .modWI x z => ⟨Opcode.code .mod, .wordImmediate, x.selector, 0, some (.word z)⟩
  | .negRR x y => ⟨Opcode.code .neg, .registerRegister, x.selector, y.selector, none⟩
  | .negSI x imm => ⟨Opcode.code .neg, .shortImmediate, x.selector, imm, none⟩
  | .negWI x z => ⟨Opcode.code .neg, .wordImmediate, x.selector, 0, some (.word z)⟩
  | .minRR x y => ⟨Opcode.code .min, .registerRegister, x.selector, y.selector, none⟩
  | .minSI x imm => ⟨Opcode.code .min, .shortImmediate, x.selector, imm, none⟩
  | .minWI x z => ⟨Opcode.code .min, .wordImmediate, x.selector, 0, some (.word z)⟩
  | .maxRR x y => ⟨Opcode.code .max, .registerRegister, x.selector, y.selector, none⟩
  | .maxSI x imm => ⟨Opcode.code .max, .shortImmediate, x.selector, imm, none⟩
  | .maxWI x z => ⟨Opcode.code .max, .wordImmediate, x.selector, 0, some (.word z)⟩
  | .conRR x y => ⟨Opcode.code .con, .registerRegister, x.selector, y.selector, none⟩
  | .conSI x imm => ⟨Opcode.code .con, .shortImmediate, x.selector, imm, none⟩
  | .conWI x z => ⟨Opcode.code .con, .wordImmediate, x.selector, 0, some (.word z)⟩
  | .anyRR x y => ⟨Opcode.code .any, .registerRegister, x.selector, y.selector, none⟩
  | .anySI x imm => ⟨Opcode.code .any, .shortImmediate, x.selector, imm, none⟩
  | .anyWI x z => ⟨Opcode.code .any, .wordImmediate, x.selector, 0, some (.word z)⟩
  | .rshRR x y => ⟨Opcode.code .rsh, .registerRegister, x.selector, y.selector, none⟩
  | .rshSI x imm => ⟨Opcode.code .rsh, .shortImmediate, x.selector, imm, none⟩
  | .rshWI x z => ⟨Opcode.code .rsh, .wordImmediate, x.selector, 0, some (.word z)⟩
  | .ushRR x y => ⟨Opcode.code .ush, .registerRegister, x.selector, y.selector, none⟩
  | .ushSI x imm => ⟨Opcode.code .ush, .shortImmediate, x.selector, imm, none⟩
  | .ushWI x z => ⟨Opcode.code .ush, .wordImmediate, x.selector, 0, some (.word z)⟩
  | .nopRR => ⟨Opcode.code .nop, .registerRegister, 0, 0, none⟩
  | .nopSI => ⟨Opcode.code .nop, .shortImmediate, 0, 0, none⟩
  | .nopWI z => ⟨Opcode.code .nop, .wordImmediate, 0, 0, some (.word z)⟩
  | .movRR x y => ⟨Opcode.code .mov, .registerRegister, x.selector, y.selector, none⟩
  | .movSI x imm => ⟨Opcode.code .mov, .shortImmediate, x.selector, imm, none⟩
  | .movWI x z => ⟨Opcode.code .mov, .wordImmediate, x.selector, 0, some (.word z)⟩
  | .cmpRR x y => ⟨Opcode.code .cmp, .registerRegister, x.selector, y.selector, none⟩
  | .cmpSI x imm => ⟨Opcode.code .cmp, .shortImmediate, x.selector, imm, none⟩
  | .cmpWI x z => ⟨Opcode.code .cmp, .wordImmediate, x.selector, 0, some (.word z)⟩
  | .jmpRR y => ⟨Opcode.code .jmp, .registerRegister, 0, y.selector, none⟩
  | .jmpSI imm => ⟨Opcode.code .jmp, .shortImmediate, 0, imm, none⟩
  | .jmpWI z => ⟨Opcode.code .jmp, .wordImmediate, 0, 0, some (.word z)⟩
  | .beqRR y => ⟨Opcode.code .beq, .registerRegister, 0, y.selector, none⟩
  | .beqSI imm => ⟨Opcode.code .beq, .shortImmediate, 0, imm, none⟩
  | .beqWI z => ⟨Opcode.code .beq, .wordImmediate, 0, 0, some (.word z)⟩
  | .bgtRR y => ⟨Opcode.code .bgt, .registerRegister, 0, y.selector, none⟩
  | .bgtSI imm => ⟨Opcode.code .bgt, .shortImmediate, 0, imm, none⟩
  | .bgtWI z => ⟨Opcode.code .bgt, .wordImmediate, 0, 0, some (.word z)⟩
  | .bltRR y => ⟨Opcode.code .blt, .registerRegister, 0, y.selector, none⟩
  | .bltSI imm => ⟨Opcode.code .blt, .shortImmediate, 0, imm, none⟩
  | .bltWI z => ⟨Opcode.code .blt, .wordImmediate, 0, 0, some (.word z)⟩
  | .jalRR y => ⟨Opcode.code .jal, .registerRegister, 0, y.selector, none⟩
  | .jalSI imm => ⟨Opcode.code .jal, .shortImmediate, 0, imm, none⟩
  | .jalWI z => ⟨Opcode.code .jal, .wordImmediate, 0, 0, some (.word z)⟩
  | .lodRR x y => ⟨Opcode.code .lod, .registerRegister, x.selector, y.selector, none⟩
  | .lodSI x imm => ⟨Opcode.code .lod, .shortImmediate, x.selector, imm, none⟩
  | .lodWI x z => ⟨Opcode.code .lod, .wordImmediate, x.selector, 0, some (.word z)⟩
  | .xorRR x y => ⟨Opcode.code .xor, .registerRegister, x.selector, y.selector, none⟩
  | .xorSI x imm => ⟨Opcode.code .xor, .shortImmediate, x.selector, imm, none⟩
  | .xorWI x z => ⟨Opcode.code .xor, .wordImmediate, x.selector, 0, some (.word z)⟩

/-- The addressing mode of an instruction. -/
def Instr.mode (i : Instr) : Mode :=
  i.toRecord.mode

/-- The length of an instruction in words (30_encoding.md R51). -/
def Instr.length (i : Instr) : Int :=
  i.mode.length

/-- The instruction of decoded fields: what each field is used for (30_encoding.md R61); a field the
instruction ignores is dropped (R62). `z` is the second word and is used under WORD_IMMEDIATE only. -/
def Instr.ofFields (op : Opcode) (m : Mode) (x y : Int) (z : Word) : Instr :=
  match op, m with
  | .add, .registerRegister => .addRR (Reg.ofSelector x) (Reg.ofSelector y)
  | .add, .shortImmediate => .addSI (Reg.ofSelector x) y
  | .add, .wordImmediate => .addWI (Reg.ofSelector x) z
  | .addc, .registerRegister => .addcRR (Reg.ofSelector x) (Reg.ofSelector y)
  | .addc, .shortImmediate => .addcSI (Reg.ofSelector x) y
  | .addc, .wordImmediate => .addcWI (Reg.ofSelector x) z
  | .mul, .registerRegister => .mulRR (Reg.ofSelector x) (Reg.ofSelector y)
  | .mul, .shortImmediate => .mulSI (Reg.ofSelector x) y
  | .mul, .wordImmediate => .mulWI (Reg.ofSelector x) z
  | .div, .registerRegister => .divRR (Reg.ofSelector x) (Reg.ofSelector y)
  | .div, .shortImmediate => .divSI (Reg.ofSelector x) y
  | .div, .wordImmediate => .divWI (Reg.ofSelector x) z
  | .mod, .registerRegister => .modRR (Reg.ofSelector x) (Reg.ofSelector y)
  | .mod, .shortImmediate => .modSI (Reg.ofSelector x) y
  | .mod, .wordImmediate => .modWI (Reg.ofSelector x) z
  | .neg, .registerRegister => .negRR (Reg.ofSelector x) (Reg.ofSelector y)
  | .neg, .shortImmediate => .negSI (Reg.ofSelector x) y
  | .neg, .wordImmediate => .negWI (Reg.ofSelector x) z
  | .min, .registerRegister => .minRR (Reg.ofSelector x) (Reg.ofSelector y)
  | .min, .shortImmediate => .minSI (Reg.ofSelector x) y
  | .min, .wordImmediate => .minWI (Reg.ofSelector x) z
  | .max, .registerRegister => .maxRR (Reg.ofSelector x) (Reg.ofSelector y)
  | .max, .shortImmediate => .maxSI (Reg.ofSelector x) y
  | .max, .wordImmediate => .maxWI (Reg.ofSelector x) z
  | .con, .registerRegister => .conRR (Reg.ofSelector x) (Reg.ofSelector y)
  | .con, .shortImmediate => .conSI (Reg.ofSelector x) y
  | .con, .wordImmediate => .conWI (Reg.ofSelector x) z
  | .any, .registerRegister => .anyRR (Reg.ofSelector x) (Reg.ofSelector y)
  | .any, .shortImmediate => .anySI (Reg.ofSelector x) y
  | .any, .wordImmediate => .anyWI (Reg.ofSelector x) z
  | .rsh, .registerRegister => .rshRR (Reg.ofSelector x) (Reg.ofSelector y)
  | .rsh, .shortImmediate => .rshSI (Reg.ofSelector x) y
  | .rsh, .wordImmediate => .rshWI (Reg.ofSelector x) z
  | .ush, .registerRegister => .ushRR (Reg.ofSelector x) (Reg.ofSelector y)
  | .ush, .shortImmediate => .ushSI (Reg.ofSelector x) y
  | .ush, .wordImmediate => .ushWI (Reg.ofSelector x) z
  | .nop, .registerRegister => .nopRR
  | .nop, .shortImmediate => .nopSI
  | .nop, .wordImmediate => .nopWI z
  | .mov, .registerRegister => .movRR (Reg.ofSelector x) (Reg.ofSelector y)
  | .mov, .shortImmediate => .movSI (Reg.ofSelector x) y
  | .mov, .wordImmediate => .movWI (Reg.ofSelector x) z
  | .cmp, .registerRegister => .cmpRR (Reg.ofSelector x) (Reg.ofSelector y)
  | .cmp, .shortImmediate => .cmpSI (Reg.ofSelector x) y
  | .cmp, .wordImmediate => .cmpWI (Reg.ofSelector x) z
  | .jmp, .registerRegister => .jmpRR (Reg.ofSelector y)
  | .jmp, .shortImmediate => .jmpSI y
  | .jmp, .wordImmediate => .jmpWI z
  | .beq, .registerRegister => .beqRR (Reg.ofSelector y)
  | .beq, .shortImmediate => .beqSI y
  | .beq, .wordImmediate => .beqWI z
  | .bgt, .registerRegister => .bgtRR (Reg.ofSelector y)
  | .bgt, .shortImmediate => .bgtSI y
  | .bgt, .wordImmediate => .bgtWI z
  | .blt, .registerRegister => .bltRR (Reg.ofSelector y)
  | .blt, .shortImmediate => .bltSI y
  | .blt, .wordImmediate => .bltWI z
  | .jal, .registerRegister => .jalRR (Reg.ofSelector y)
  | .jal, .shortImmediate => .jalSI y
  | .jal, .wordImmediate => .jalWI z
  | .lod, .registerRegister => .lodRR (Reg.ofSelector x) (Reg.ofSelector y)
  | .lod, .shortImmediate => .lodSI (Reg.ofSelector x) y
  | .lod, .wordImmediate => .lodWI (Reg.ofSelector x) z
  | .xor, .registerRegister => .xorRR (Reg.ofSelector x) (Reg.ofSelector y)
  | .xor, .shortImmediate => .xorSI (Reg.ofSelector x) y
  | .xor, .wordImmediate => .xorWI (Reg.ofSelector x) z

end Sys2Proof
end

