-- ==== Sys2Proof/WellFormed.lean ====
section
/-! DEFINITION. Which records and instructions have words: the checks of `encode` (30_encoding.md R50, R65). -/

namespace Sys2Proof

/-- The range of a 2-trit field, -4 to +4: a register selector or a short immediate (30_encoding.md R50, R59). -/
abbrev inField2 (n : Int) : Prop :=
  -Config.shortImmMax ≤ n ∧ n ≤ Config.shortImmMax

/-- z is present exactly under WORD_IMMEDIATE, and is a word (30_encoding.md R50, R65). -/
def zMatches : Mode → Option ZField → Bool
  | .wordImmediate, some (.word _) => true
  | .registerRegister, none => true
  | .shortImmediate, none => true
  | _, _ => false

/-- A record that `encode` accepts (30_encoding.md R65): the opcode is one of the 22, x is a selector, y is a selector
or short immediate where the mode uses it, and z fits the mode. -/
abbrev Record.wf (r : Record) : Prop :=
  (Opcode.ofCode r.opcode).isSome = true ∧ inField2 r.x
    ∧ (r.mode = .wordImmediate ∨ inField2 r.y) ∧ zMatches r.mode r.z = true

/-- A well-formed instruction: its record is. An instruction fails this only by a short immediate outside -4 to +4
(30_encoding.md R59); such a term has no encoding. -/
abbrev Instr.wf (i : Instr) : Prop :=
  i.toRecord.wf

end Sys2Proof
end

