-- ==== Sys2Proof/Decode.lean ====
section
/-! DEFINITION. The instruction codec (30_encoding.md sections 2 to 7): `decode`, total on any words and rejecting with
DecodeError by name; then `encode`, which refuses with EncodeError; then the host's `decodeTableWord`. -/

namespace Sys2Proof

/-- The value of the field at trits i to j (30_encoding.md R53). -/
def fieldValue (w : Word) (i j : Nat) : Int :=
  digitsToInt (w.slice i j)

/-- The opcode field, trits 0 to 2 (30_encoding.md R52). -/
def opcodeField (w : Word) : Int :=
  fieldValue w 0 2

/-- The mode field, trits 3 to 4 (30_encoding.md R52). -/
def modeField (w : Word) : Int :=
  fieldValue w 3 4

/-- The x field, trits 5 to 6 (30_encoding.md R52). -/
def xField (w : Word) : Int :=
  fieldValue w 5 6

/-- The y field, trits 7 to 8 (30_encoding.md R52). -/
def yField (w : Word) : Int :=
  fieldValue w 7 8

/-- `decode1` of 30_encoding.md R63: what the first word alone says, x and y as they stand. -/
def decode1 (w : Word) : Except ErrorKind Header :=
  match Opcode.ofCode (opcodeField w), Mode.ofCode (modeField w) with
  | some op, some m => .ok ⟨op, m, xField w, yField w⟩
  | _, _ => .error .decodeError

/-- `decode` of 30_encoding.md R63 to the record of R50: `z` is the second word under WORD_IMMEDIATE and
absent otherwise. -/
def decodeRecord (w w2 : Word) : Except ErrorKind Record :=
  match decode1 w with
  | .ok h =>
    .ok ⟨h.opcode.code, h.mode, h.x, h.y, if h.mode = .wordImmediate then some (.word w2) else none⟩
  | .error e => .error e

/-- `decode` of 30_encoding.md R63 to an instruction: the ignored fields are dropped (R62). -/
def decode (w w2 : Word) : Except ErrorKind Instr :=
  match decode1 w with
  | .ok h => .ok (Instr.ofFields h.opcode h.mode h.x h.y w2)
  | .error e => .error e

/-- The first word of an encoding (30_encoding.md R64): word_3(op) ++ word_2(m) ++ word_2(x) ++ word_2(y). -/
def packFields (op m x y : Int) : Word :=
  ext9 (lowTrits 3 op ++ lowTrits 2 m ++ lowTrits 2 x ++ lowTrits 2 y)

/-- `encode` of a record (30_encoding.md R64, R65). Under WORD_IMMEDIATE the y of the record is not used and 0 is
written. -/
def encodeRecord (r : Record) : Except ErrorKind (Word × Option Word) :=
  if (Opcode.ofCode r.opcode).isNone then .error .encodeError
  else if ¬ inField2 r.x then .error .encodeError
  else
    match r.mode, r.z with
    | .wordImmediate, some (.word z) => .ok (packFields r.opcode r.mode.code r.x 0, some z)
    | .wordImmediate, _ => .error .encodeError
    | _, some _ => .error .encodeError
    | _, none =>
      if inField2 r.y then .ok (packFields r.opcode r.mode.code r.x r.y, none)
      else .error .encodeError

/-- `encode` of an instruction: the words of its record, ignored fields 0 (30_encoding.md R62, R64). -/
def encode (i : Instr) : Except ErrorKind (Word × Option Word) :=
  encodeRecord i.toRecord

/-- The word a 16-bit two's complement number stands for; none outside -9841 to +9841. The spec numbers trits, not
bits: that the host's bits are read so is the model's own choice (assumption log 4). -/
def wordOfBits (n : Nat) : Option Word :=
  match intPort (BitVec.ofNat 16 n) with
  | .ok w => some w
  | .error _ => none

/-- The host's question about one instruction whose bits are `w` (assumption log 4): the first word is bits 15..0, the
second bits 31..16, bits from `nbits` on are 0. -/
def decodeTableWord (nbits w : Nat) : Option Instr :=
  match wordOfBits (w % 2 ^ nbits), wordOfBits (w % 2 ^ nbits / 65536) with
  | some w1, some w2 =>
    match decode w1 w2 with
    | .ok i => some i
    | .error _ => none
  | _, _ => none

end Sys2Proof
end

