-- ==== Sys2Proof/Machine/Alu.lean ====
section
/-! DEFINITION. The thirteen ALU functions (41_alu_functions.md R110 to R126): pure and total, from two words to one word,
with no flag and no error. `a` is the accumulator, `b` the operand. -/

namespace Sys2Proof.Machine.Alu

/-- A per-trit operation (41_alu_functions.md section 2): one table at each of the nine positions, no carry. -/
def perTrit (f : Trit → Trit → Trit) (a b : Word) : Word :=
  Word.ofFn fun i => f (a.trit i) (b.trit i)

/-- The table of 41_alu_functions.md R113. -/
def minTrit : Trit → Trit → Trit
  | .neg, _ => .neg
  | _, .neg => .neg
  | .zero, _ => .zero
  | _, .zero => .zero
  | .pos, .pos => .pos

/-- The table of 41_alu_functions.md R114. -/
def maxTrit : Trit → Trit → Trit
  | .pos, _ => .pos
  | _, .pos => .pos
  | .zero, _ => .zero
  | _, .zero => .zero
  | .neg, .neg => .neg

/-- The table of 41_alu_functions.md R115; the entries of two opposite trits are the spec's own decision D20. -/
def xorTrit : Trit → Trit → Trit
  | .zero, q => q
  | p, .zero => p
  | _, _ => .zero

/-- The table of 41_alu_functions.md R116; 0 on disagreement is the spec's own decision D21. -/
def consensusTrit (p q : Trit) : Trit :=
  if p = q then p else .zero

/-- The table of 41_alu_functions.md R117, sgn(p + q); every entry is the spec's own decision D22. -/
def unionTrit (p q : Trit) : Trit :=
  sgn (p.val + q.val)

/-- -t. -/
def negTrit : Trit → Trit
  | .neg => .pos
  | .zero => .zero
  | .pos => .neg

/-- 41_alu_functions.md R113, opcode MIN. -/
def min (a b : Word) : Word :=
  perTrit minTrit a b

/-- 41_alu_functions.md R114, opcode MAX. -/
def max (a b : Word) : Word :=
  perTrit maxTrit a b

/-- 41_alu_functions.md R115, opcode XOR. -/
def xor (a b : Word) : Word :=
  perTrit xorTrit a b

/-- 41_alu_functions.md R116, opcode CON. -/
def consensus (a b : Word) : Word :=
  perTrit consensusTrit a b

/-- 41_alu_functions.md R117, opcode ANY. -/
def union (a b : Word) : Word :=
  perTrit unionTrit a b

/-- 41_alu_functions.md R119, opcode NEG: the operand negated trit by trit; the accumulator is not used (D19). -/
def negate (_a b : Word) : Word :=
  Word.ofFn fun i => negTrit (b.trit i)

/-- 41_alu_functions.md R120, opcode ADD: the sum wrapped; the carry is discarded. -/
def add (a b : Word) : Word :=
  wordOf (wrap (a.val + b.val))

/-- 41_alu_functions.md R124, opcode ADDC: the carry out of the nine-trit addition, as a word (D17). -/
def addWithCarry (a b : Word) : Word :=
  wordOf ((a.val + b.val - wrap (a.val + b.val)) / Config.wordValues)

/-- `n div d` of 41_alu_functions.md R121 for d not 0: truncated toward zero. -/
def intDiv (n d : Int) : Int :=
  (sgn n).val * (sgn d).val * ((n.natAbs / d.natAbs : Nat) : Int)

/-- `n rem d` of 41_alu_functions.md R121 for d not 0. -/
def intRem (n d : Int) : Int :=
  n - intDiv n d * d

/-- 41_alu_functions.md R121, opcode DIV: the zero word on a zero divisor (D18). -/
def divide (a b : Word) : Word :=
  if b.val = 0 then Word.zero else wordOf (intDiv a.val b.val)

/-- 41_alu_functions.md R122, opcode MOD: a on a zero divisor (D18). -/
def modulo (a b : Word) : Word :=
  if b.val = 0 then a else wordOf (intRem a.val b.val)

/-- 41_alu_functions.md R123, opcode MUL: the low nine trits of the product (D16). -/
def multiply (a b : Word) : Word :=
  wordOf (wrap (a.val * b.val))

/-- 41_alu_functions.md R125, opcode RSH: a rotation by n mod 9 places toward index 0 (D23). -/
def rotateShift (a b : Word) : Word :=
  let k := (b.val % 9).toNat
  Word.ofFn fun i => a.trit ((i + k) % 9)

/-- The trit at a signed index, zero outside the word. -/
def tritAt (a : Word) (i : Int) : Trit :=
  if 0 ≤ i ∧ i ≤ 8 then a.trit i.toNat else .zero

/-- 41_alu_functions.md R126, opcode USH: the trit at index i comes from index i + n, zero where the word has none; with
9 places or more no trit is left (D24). -/
def unsignedShift (a b : Word) : Word :=
  Word.ofFn fun i => tritAt a (i + b.val)

/-- One balanced full adder (41_alu_functions.md R120): the sum trit and the carry of three trits. -/
def fullAdder (p q c : Trit) : Trit × Trit :=
  let t := p.val + q.val + c.val
  if t = -3 then (.zero, .neg)
  else if t = -2 then (.pos, .neg)
  else if t = -1 then (.neg, .zero)
  else if t = 0 then (.zero, .zero)
  else if t = 1 then (.pos, .zero)
  else if t = 2 then (.neg, .pos)
  else (.zero, .pos)

/-- The ripple of full adders of 41_alu_functions.md R120 over trit sequences, least significant first: the sum
trits and the carry out. -/
def ripple : List Trit → List Trit → Trit → List Trit × Trit
  | p :: ps, q :: qs, c =>
    let d := fullAdder p q c
    let r := ripple ps qs d.2
    (d.1 :: r.1, r.2)
  | _, _, c => ([], c)

/-- The nine-trit ripple from index 8 up to index 0, carry-in 0 (41_alu_functions.md R120): the sum word and the carry
out of index 0. It is the second, gate-level description of `add` and `addWithCarry`. -/
def rippleAdd (a b : Word) : Word × Trit :=
  let r := ripple a.trits.reverse b.trits.reverse .zero
  (ext9 r.1.reverse, r.2)

end Sys2Proof.Machine.Alu
end

