-- ==== Sys2Proof/Machine/State.lean ====
section
/-! DEFINITION. The state of one virtual machine (10_state.md R13 to R24), the reasons a step can stop, and the
state after reset. -/

namespace Sys2Proof.Machine

/-- The nine registers (10_state.md R13), one word each; none is hardwired (R15). -/
@[ext]
structure RegFile where
  r0 : Word
  r1 : Word
  r2 : Word
  r3 : Word
  r4 : Word
  r5 : Word
  r6 : Word
  ra : Word
  sp : Word
deriving DecidableEq, Repr

/-- The FAULT latch (10_state.md R19): clear, or set with the address and the instruction word of the
instruction whose decode failed. -/
inductive FaultLatch where
  | clear
  | set (pc w : Word)
deriving DecidableEq, Repr

/-- Memory (10_state.md R20): the cells that do not hold the zero word, each with its integer address, in
rising order of address. A cell is one word, the smallest unit of this hardware (20_memory.md R36). -/
abbrev Memory := List (Int × Word)

/-- The whole state (10_state.md R21): registers, program counter, comparison flag, FAULT latch, memory. -/
@[ext]
structure State where
  regs : RegFile
  pc : Word
  cf : Trit
  latch : FaultLatch
  mem : Memory
deriving DecidableEq, Repr

/-- Why a step stops. -/
inductive Fault where
  /-- Raised by a step of an instance whose FAULT latch is set (42_step_cycle.md R141, 60_exceptions.md R203):
  the step does nothing and reports the recorded address and word again. Safe: the spec says the
  instance never executes another instruction. -/
  | decodeError (pc w : Word)
deriving DecidableEq, Repr

/-- Why an instruction has no meaning here. -/
inductive Refusal where
  /-- Raised by an arm of `exec` that has no meaning yet. Safe: the model stops. No arm answers it. -/
  | notModelled (mnemonic : String)
deriving DecidableEq, Repr

/-- The state after reset (10_state.md R24, 70_reset_and_hazards.md R231). CF = 0 and the clear latch are the
spec's own decision (92_eei_decisions.md D27; assumption log 2). -/
def State.reset : State where
  regs := ⟨.zero, .zero, .zero, .zero, .zero, .zero, .zero, .zero, .zero⟩
  pc := .zero
  cf := .zero
  latch := .clear
  mem := []

end Sys2Proof.Machine
end

