-- ==== Sys2Proof/Machine/Ops.lean ====
section
/-! DEFINITION. The named operations over memory (20_memory.md), the registers (10_state.md R13 to R16) and the FAULT
latch (60_exceptions.md R203). Taking the one exception of this hardware, the DecodeError, is
`takeDecodeError`. There is no return from it (60_exceptions.md R207): only reset clears the latch. -/

namespace Sys2Proof.Machine

/-- What an unlisted cell holds: the zero word (10_state.md R20, "all cells start at the zero word"). -/
def Memory.unlisted : Word :=
  Word.zero

/-- The word in the cell with integer address `a`. -/
def Memory.cell (m : Memory) (a : Int) : Word :=
  match m with
  | [] => Memory.unlisted
  | (k, v) :: rest => if k = a then v else Memory.cell rest a

/-- `m` without a cell listed at `a`. -/
def Memory.drop (m : Memory) (a : Int) : Memory :=
  m.filter fun c => decide (c.1 ≠ a)

/-- `m` with the cell `(a, v)` before the first cell of a greater address. -/
def Memory.insert (m : Memory) (a : Int) (v : Word) : Memory :=
  match m with
  | [] => [(a, v)]
  | (k, u) :: rest =>
    if a < k then (a, v) :: (k, u) :: rest else (k, u) :: Memory.insert rest a v

/-- The cell with integer address `a` replaced by `v`, in canonical form. -/
def Memory.setCell (m : Memory) (a : Int) (v : Word) : Memory :=
  if v = Memory.unlisted then m.drop a else (m.drop a).insert a v

/-- `load(address)` (20_memory.md R31), the pseudocode's MemRead(address, 1). -/
def Memory.load (m : Memory) (address : Word) : Word :=
  m.cell address.val

/-- `store(value, address)` (20_memory.md R32), the pseudocode's MemWrite(address, 1, value); the value comes first. -/
def Memory.store (m : Memory) (value address : Word) : Memory :=
  m.setCell address.val value

/-- The canonical form of memory: addresses rise strictly, lie in -9841 to +9841 (20_memory.md R30), and no
listed cell holds what an unlisted one reads as. Equal memories are then equal data. -/
abbrev Memory.wf (m : Memory) : Prop :=
  m.Pairwise (fun c d => c.1 < d.1)
    ∧ ∀ c ∈ m, -Config.wordMax ≤ c.1 ∧ c.1 ≤ Config.wordMax ∧ c.2 ≠ Memory.unlisted

/-- Reads the register of a name. -/
def RegFile.get (f : RegFile) : Reg → Word
  | .r0 => f.r0
  | .r1 => f.r1
  | .r2 => f.r2
  | .r3 => f.r3
  | .r4 => f.r4
  | .r5 => f.r5
  | .r6 => f.r6
  | .ra => f.ra
  | .sp => f.sp

/-- Writes the register of a name. -/
def RegFile.put (f : RegFile) (v : Word) : Reg → RegFile
  | .r0 => { f with r0 := v }
  | .r1 => { f with r1 := v }
  | .r2 => { f with r2 := v }
  | .r3 => { f with r3 := v }
  | .r4 => { f with r4 := v }
  | .r5 => { f with r5 := v }
  | .r6 => { f with r6 := v }
  | .ra => { f with ra := v }
  | .sp => { f with sp := v }

/-- `x[s]`: every one of the nine registers is read alike (10_state.md R15). -/
def State.reg (s : State) (r : Reg) : Word :=
  s.regs.get r

/-- `x[s] <- v`: every one of the nine registers is written alike (10_state.md R15). -/
def State.setReg (s : State) (r : Reg) (v : Word) : State :=
  { s with regs := s.regs.put v r }

/-- `pc <- v`. -/
def State.setPc (s : State) (v : Word) : State :=
  { s with pc := v }

/-- `CF <- v`. -/
def State.setCf (s : State) (v : Trit) : State :=
  { s with cf := v }

/-- `MemWrite(address, 1, value)`. -/
def State.setMem (s : State) (m : Memory) : State :=
  { s with mem := m }

/-- The FAULT latch written. -/
def State.setLatch (s : State) (l : FaultLatch) : State :=
  { s with latch := l }

/-- The address `n` words after `a`: word(wrap(val(a) + n)) (10_state.md R16, 20_memory.md R47). -/
def addressPlus (a : Word) (n : Int) : Word :=
  wordOf (wrap (a.val + n))

/-- Phase 5 of a step (42_step_cycle.md R146): the pc moves past an instruction of `n` words, for every opcode. -/
def State.advancePc (s : State) (n : Int) : State :=
  s.setPc (addressPlus s.pc n)

/-- Taking the DecodeError (60_exceptions.md R203, 42_step_cycle.md R143): FAULT <- set(pc, w) and nothing else. -/
def takeDecodeError (s : State) (w : Word) : State :=
  s.setLatch (.set s.pc w)

end Sys2Proof.Machine
end

