-- ==== Sys2Proof/Machine/Operands.lean ====
section
/-! DEFINITION. The src operand (42_step_cycle.md R145, 30_encoding.md R58 to R60). -/

namespace Sys2Proof.Machine

/-- The three operand forms. -/
inductive Operand where
  /-- REGISTER_REGISTER: the register the y field selects (30_encoding.md R58). -/
  | reg (y : Reg)
  /-- SHORT_IMMEDIATE: the value of the y field, -4 to +4 (30_encoding.md R59). -/
  | short (imm : Int)
  /-- WORD_IMMEDIATE: the second word (30_encoding.md R60). -/
  | word (z : Word)
deriving DecidableEq, Repr

/-- `ext9(y)` (30_encoding.md R59): the 2-trit immediate padded with seven zero trits. -/
def shortWord (imm : Int) : Word :=
  ext9 (lowTrits 2 imm)

/-- src (42_step_cycle.md R145). Reading it changes nothing. -/
def State.src (s : State) : Operand → Word
  | .reg y => s.reg y
  | .short imm => shortWord imm
  | .word z => z

end Sys2Proof.Machine
end

