-- ==== Sys2Proof/Machine/AluInto.lean ====
section
/-! DEFINITION. The effect all thirteen ALU instructions share (44_alu_instructions.md R170). The pc has
already been advanced (42_step_cycle.md R146), as in every meaning. -/

namespace Sys2Proof.Machine

/-- `x[X] <- ALU.op(x[X], src)`, both inputs read before the write (44_alu_instructions.md R170, 42_step_cycle.md
R147). Nothing but the register X changes. -/
def aluInto (f : Word → Word → Word) (x : Reg) (o : Operand) (s : State) : State :=
  s.setReg x (f (s.reg x) (s.src o))

end Sys2Proof.Machine
end

