-- ==== Sys2Proof/Machine/Arithmetic.lean ====
section
/-! DEFINITION. ADD, ADDC, MUL, DIV, MOD, NEG (44_alu_instructions.md R171 to R176). -/

namespace Sys2Proof.Machine

/-- ADD in REGISTER_REGISTER mode (44_alu_instructions.md R171). -/
def execAddRR (x : Reg) (y : Reg) (s : State) : Host.Outcome State Fault Refusal :=
  .next (aluInto Alu.add x (.reg y) s)

/-- ADD in SHORT_IMMEDIATE mode (44_alu_instructions.md R171). -/
def execAddSI (x : Reg) (imm : Int) (s : State) : Host.Outcome State Fault Refusal :=
  .next (aluInto Alu.add x (.short imm) s)

/-- ADD in WORD_IMMEDIATE mode (44_alu_instructions.md R171). -/
def execAddWI (x : Reg) (z : Word) (s : State) : Host.Outcome State Fault Refusal :=
  .next (aluInto Alu.add x (.word z) s)

/-- ADDC in REGISTER_REGISTER mode (44_alu_instructions.md R172). -/
def execAddcRR (x : Reg) (y : Reg) (s : State) : Host.Outcome State Fault Refusal :=
  .next (aluInto Alu.addWithCarry x (.reg y) s)

/-- ADDC in SHORT_IMMEDIATE mode (44_alu_instructions.md R172). -/
def execAddcSI (x : Reg) (imm : Int) (s : State) : Host.Outcome State Fault Refusal :=
  .next (aluInto Alu.addWithCarry x (.short imm) s)

/-- ADDC in WORD_IMMEDIATE mode (44_alu_instructions.md R172). -/
def execAddcWI (x : Reg) (z : Word) (s : State) : Host.Outcome State Fault Refusal :=
  .next (aluInto Alu.addWithCarry x (.word z) s)

/-- MUL in REGISTER_REGISTER mode (44_alu_instructions.md R173). -/
def execMulRR (x : Reg) (y : Reg) (s : State) : Host.Outcome State Fault Refusal :=
  .next (aluInto Alu.multiply x (.reg y) s)

/-- MUL in SHORT_IMMEDIATE mode (44_alu_instructions.md R173). -/
def execMulSI (x : Reg) (imm : Int) (s : State) : Host.Outcome State Fault Refusal :=
  .next (aluInto Alu.multiply x (.short imm) s)

/-- MUL in WORD_IMMEDIATE mode (44_alu_instructions.md R173). -/
def execMulWI (x : Reg) (z : Word) (s : State) : Host.Outcome State Fault Refusal :=
  .next (aluInto Alu.multiply x (.word z) s)

/-- DIV in REGISTER_REGISTER mode (44_alu_instructions.md R174). -/
def execDivRR (x : Reg) (y : Reg) (s : State) : Host.Outcome State Fault Refusal :=
  .next (aluInto Alu.divide x (.reg y) s)

/-- DIV in SHORT_IMMEDIATE mode (44_alu_instructions.md R174). -/
def execDivSI (x : Reg) (imm : Int) (s : State) : Host.Outcome State Fault Refusal :=
  .next (aluInto Alu.divide x (.short imm) s)

/-- DIV in WORD_IMMEDIATE mode (44_alu_instructions.md R174). -/
def execDivWI (x : Reg) (z : Word) (s : State) : Host.Outcome State Fault Refusal :=
  .next (aluInto Alu.divide x (.word z) s)

/-- MOD in REGISTER_REGISTER mode (44_alu_instructions.md R175). -/
def execModRR (x : Reg) (y : Reg) (s : State) : Host.Outcome State Fault Refusal :=
  .next (aluInto Alu.modulo x (.reg y) s)

/-- MOD in SHORT_IMMEDIATE mode (44_alu_instructions.md R175). -/
def execModSI (x : Reg) (imm : Int) (s : State) : Host.Outcome State Fault Refusal :=
  .next (aluInto Alu.modulo x (.short imm) s)

/-- MOD in WORD_IMMEDIATE mode (44_alu_instructions.md R175). -/
def execModWI (x : Reg) (z : Word) (s : State) : Host.Outcome State Fault Refusal :=
  .next (aluInto Alu.modulo x (.word z) s)

/-- NEG in REGISTER_REGISTER mode (44_alu_instructions.md R176). -/
def execNegRR (x : Reg) (y : Reg) (s : State) : Host.Outcome State Fault Refusal :=
  .next (aluInto Alu.negate x (.reg y) s)

/-- NEG in SHORT_IMMEDIATE mode (44_alu_instructions.md R176). -/
def execNegSI (x : Reg) (imm : Int) (s : State) : Host.Outcome State Fault Refusal :=
  .next (aluInto Alu.negate x (.short imm) s)

/-- NEG in WORD_IMMEDIATE mode (44_alu_instructions.md R176). -/
def execNegWI (x : Reg) (z : Word) (s : State) : Host.Outcome State Fault Refusal :=
  .next (aluInto Alu.negate x (.word z) s)

end Sys2Proof.Machine
end

