-- ==== Sys2Proof/Machine/Flags.lean ====
section
/-! DEFINITION. The comparison flag CF (10_state.md R17, R18): one trit, written by CMP alone, read by BEQ, BGT and BLT. -/

namespace Sys2Proof.Machine

/-- The outcome of a comparison (43_data_movement.md R163): sgn(val(a) - val(b)), the exact difference. -/
def compareFlag (a b : Word) : Trit :=
  sgn (a.val - b.val)

/-- BEQ's condition (45_control_flow.md R192): CF = 0. -/
def State.flagEqual (s : State) : Bool :=
  decide (s.cf = .zero)

/-- BGT's condition (45_control_flow.md R193): CF = +1. -/
def State.flagGreater (s : State) : Bool :=
  decide (s.cf = .pos)

/-- BLT's condition (45_control_flow.md R194): CF = -1. -/
def State.flagLess (s : State) : Bool :=
  decide (s.cf = .neg)

end Sys2Proof.Machine
end

