-- ==== Sys2Proof/Machine/ControlFlow.lean ====
section
/-! DEFINITION. JMP, BEQ, BGT, BLT, JAL (45_control_flow.md R190 to R195). The target is the src operand, an absolute
address; there is no delay slot (R197). -/

namespace Sys2Proof.Machine

/-- `pc <- src` (45_control_flow.md R191). -/
def jumpTo (o : Operand) (s : State) : State :=
  s.setPc (s.src o)

/-- `pc <- src` where the condition on CF holds; else the pc keeps its advanced value (45_control_flow.md R192 to
R194). -/
def branchIf (taken : Bool) (o : Operand) (s : State) : State :=
  if taken then s.setPc (s.src o) else s

/-- `x[ra] <- pc; pc <- src`, src read before ra is written (45_control_flow.md R195). The pc is the advanced pc. -/
def jumpAndLink (o : Operand) (s : State) : State :=
  (s.setReg .ra s.pc).setPc (s.src o)

/-- JMP in REGISTER_REGISTER mode (45_control_flow.md R191). -/
def execJmpRR (y : Reg) (s : State) : Host.Outcome State Fault Refusal :=
  .next (jumpTo (.reg y) s)

/-- JMP in SHORT_IMMEDIATE mode (45_control_flow.md R191). -/
def execJmpSI (imm : Int) (s : State) : Host.Outcome State Fault Refusal :=
  .next (jumpTo (.short imm) s)

/-- JMP in WORD_IMMEDIATE mode (45_control_flow.md R191). -/
def execJmpWI (z : Word) (s : State) : Host.Outcome State Fault Refusal :=
  .next (jumpTo (.word z) s)

/-- BEQ in REGISTER_REGISTER mode (45_control_flow.md R192). -/
def execBeqRR (y : Reg) (s : State) : Host.Outcome State Fault Refusal :=
  .next (branchIf s.flagEqual (.reg y) s)

/-- BEQ in SHORT_IMMEDIATE mode (45_control_flow.md R192). -/
def execBeqSI (imm : Int) (s : State) : Host.Outcome State Fault Refusal :=
  .next (branchIf s.flagEqual (.short imm) s)

/-- BEQ in WORD_IMMEDIATE mode (45_control_flow.md R192). -/
def execBeqWI (z : Word) (s : State) : Host.Outcome State Fault Refusal :=
  .next (branchIf s.flagEqual (.word z) s)

/-- BGT in REGISTER_REGISTER mode (45_control_flow.md R193). -/
def execBgtRR (y : Reg) (s : State) : Host.Outcome State Fault Refusal :=
  .next (branchIf s.flagGreater (.reg y) s)

/-- BGT in SHORT_IMMEDIATE mode (45_control_flow.md R193). -/
def execBgtSI (imm : Int) (s : State) : Host.Outcome State Fault Refusal :=
  .next (branchIf s.flagGreater (.short imm) s)

/-- BGT in WORD_IMMEDIATE mode (45_control_flow.md R193). -/
def execBgtWI (z : Word) (s : State) : Host.Outcome State Fault Refusal :=
  .next (branchIf s.flagGreater (.word z) s)

/-- BLT in REGISTER_REGISTER mode (45_control_flow.md R194). -/
def execBltRR (y : Reg) (s : State) : Host.Outcome State Fault Refusal :=
  .next (branchIf s.flagLess (.reg y) s)

/-- BLT in SHORT_IMMEDIATE mode (45_control_flow.md R194). -/
def execBltSI (imm : Int) (s : State) : Host.Outcome State Fault Refusal :=
  .next (branchIf s.flagLess (.short imm) s)

/-- BLT in WORD_IMMEDIATE mode (45_control_flow.md R194). -/
def execBltWI (z : Word) (s : State) : Host.Outcome State Fault Refusal :=
  .next (branchIf s.flagLess (.word z) s)

/-- JAL in REGISTER_REGISTER mode (45_control_flow.md R195). -/
def execJalRR (y : Reg) (s : State) : Host.Outcome State Fault Refusal :=
  .next (jumpAndLink (.reg y) s)

/-- JAL in SHORT_IMMEDIATE mode (45_control_flow.md R195). -/
def execJalSI (imm : Int) (s : State) : Host.Outcome State Fault Refusal :=
  .next (jumpAndLink (.short imm) s)

/-- JAL in WORD_IMMEDIATE mode (45_control_flow.md R195). -/
def execJalWI (z : Word) (s : State) : Host.Outcome State Fault Refusal :=
  .next (jumpAndLink (.word z) s)

end Sys2Proof.Machine
end

