-- ==== Sys2Proof/Machine/DataMovement.lean ====
section
/-! DEFINITION. MOV, LOD, CMP and the optional store (43_data_movement.md). -/

namespace Sys2Proof.Machine

/-- `x[X] <- src` (43_data_movement.md R160). -/
def moveInto (x : Reg) (o : Operand) (s : State) : State :=
  s.setReg x (s.src o)

/-- `x[X] <- MemRead(src, 1)` (43_data_movement.md R161): the address is the src operand itself. -/
def loadInto (x : Reg) (o : Operand) (s : State) : State :=
  s.setReg x (s.mem.load (s.src o))

/-- `CF <- sgn(val(x[X]) - val(src))` (43_data_movement.md R163). -/
def compareWith (x : Reg) (o : Operand) (s : State) : State :=
  s.setCf (compareFlag (s.reg x) (s.src o))

/-- `MemWrite(src, 1, x[X])` (43_data_movement.md R164): the store a platform may add by STA_OPCODE. The base machine
has none, so no row of the opcode table and no constructor of `Instr` stands for it. -/
def storeFrom (x : Reg) (o : Operand) (s : State) : State :=
  s.setMem (s.mem.store (s.reg x) (s.src o))

/-- MOV in REGISTER_REGISTER mode (43_data_movement.md R160). -/
def execMovRR (x : Reg) (y : Reg) (s : State) : Host.Outcome State Fault Refusal :=
  .next (moveInto x (.reg y) s)

/-- MOV in SHORT_IMMEDIATE mode (43_data_movement.md R160). -/
def execMovSI (x : Reg) (imm : Int) (s : State) : Host.Outcome State Fault Refusal :=
  .next (moveInto x (.short imm) s)

/-- MOV in WORD_IMMEDIATE mode (43_data_movement.md R160). -/
def execMovWI (x : Reg) (z : Word) (s : State) : Host.Outcome State Fault Refusal :=
  .next (moveInto x (.word z) s)

/-- LOD in REGISTER_REGISTER mode (43_data_movement.md R161). -/
def execLodRR (x : Reg) (y : Reg) (s : State) : Host.Outcome State Fault Refusal :=
  .next (loadInto x (.reg y) s)

/-- LOD in SHORT_IMMEDIATE mode (43_data_movement.md R161). -/
def execLodSI (x : Reg) (imm : Int) (s : State) : Host.Outcome State Fault Refusal :=
  .next (loadInto x (.short imm) s)

/-- LOD in WORD_IMMEDIATE mode (43_data_movement.md R161). -/
def execLodWI (x : Reg) (z : Word) (s : State) : Host.Outcome State Fault Refusal :=
  .next (loadInto x (.word z) s)

/-- CMP in REGISTER_REGISTER mode (43_data_movement.md R163). -/
def execCmpRR (x : Reg) (y : Reg) (s : State) : Host.Outcome State Fault Refusal :=
  .next (compareWith x (.reg y) s)

/-- CMP in SHORT_IMMEDIATE mode (43_data_movement.md R163). -/
def execCmpSI (x : Reg) (imm : Int) (s : State) : Host.Outcome State Fault Refusal :=
  .next (compareWith x (.short imm) s)

/-- CMP in WORD_IMMEDIATE mode (43_data_movement.md R163). -/
def execCmpWI (x : Reg) (z : Word) (s : State) : Host.Outcome State Fault Refusal :=
  .next (compareWith x (.word z) s)

end Sys2Proof.Machine
end

