-- ==== Sys2Proof/Machine/Logic.lean ====
section
/-! DEFINITION. MIN, MAX, CON, ANY, XOR (44_alu_instructions.md R177 to R180, R183). -/

namespace Sys2Proof.Machine

/-- MIN in REGISTER_REGISTER mode (44_alu_instructions.md R177). -/
def execMinRR (x : Reg) (y : Reg) (s : State) : Host.Outcome State Fault Refusal :=
  .next (aluInto Alu.min x (.reg y) s)

/-- MIN in SHORT_IMMEDIATE mode (44_alu_instructions.md R177). -/
def execMinSI (x : Reg) (imm : Int) (s : State) : Host.Outcome State Fault Refusal :=
  .next (aluInto Alu.min x (.short imm) s)

/-- MIN in WORD_IMMEDIATE mode (44_alu_instructions.md R177). -/
def execMinWI (x : Reg) (z : Word) (s : State) : Host.Outcome State Fault Refusal :=
  .next (aluInto Alu.min x (.word z) s)

/-- MAX in REGISTER_REGISTER mode (44_alu_instructions.md R178). -/
def execMaxRR (x : Reg) (y : Reg) (s : State) : Host.Outcome State Fault Refusal :=
  .next (aluInto Alu.max x (.reg y) s)

/-- MAX in SHORT_IMMEDIATE mode (44_alu_instructions.md R178). -/
def execMaxSI (x : Reg) (imm : Int) (s : State) : Host.Outcome State Fault Refusal :=
  .next (aluInto Alu.max x (.short imm) s)

/-- MAX in WORD_IMMEDIATE mode (44_alu_instructions.md R178). -/
def execMaxWI (x : Reg) (z : Word) (s : State) : Host.Outcome State Fault Refusal :=
  .next (aluInto Alu.max x (.word z) s)

/-- CON in REGISTER_REGISTER mode (44_alu_instructions.md R179). -/
def execConRR (x : Reg) (y : Reg) (s : State) : Host.Outcome State Fault Refusal :=
  .next (aluInto Alu.consensus x (.reg y) s)

/-- CON in SHORT_IMMEDIATE mode (44_alu_instructions.md R179). -/
def execConSI (x : Reg) (imm : Int) (s : State) : Host.Outcome State Fault Refusal :=
  .next (aluInto Alu.consensus x (.short imm) s)

/-- CON in WORD_IMMEDIATE mode (44_alu_instructions.md R179). -/
def execConWI (x : Reg) (z : Word) (s : State) : Host.Outcome State Fault Refusal :=
  .next (aluInto Alu.consensus x (.word z) s)

/-- ANY in REGISTER_REGISTER mode (44_alu_instructions.md R180). -/
def execAnyRR (x : Reg) (y : Reg) (s : State) : Host.Outcome State Fault Refusal :=
  .next (aluInto Alu.union x (.reg y) s)

/-- ANY in SHORT_IMMEDIATE mode (44_alu_instructions.md R180). -/
def execAnySI (x : Reg) (imm : Int) (s : State) : Host.Outcome State Fault Refusal :=
  .next (aluInto Alu.union x (.short imm) s)

/-- ANY in WORD_IMMEDIATE mode (44_alu_instructions.md R180). -/
def execAnyWI (x : Reg) (z : Word) (s : State) : Host.Outcome State Fault Refusal :=
  .next (aluInto Alu.union x (.word z) s)

/-- XOR in REGISTER_REGISTER mode (44_alu_instructions.md R183). -/
def execXorRR (x : Reg) (y : Reg) (s : State) : Host.Outcome State Fault Refusal :=
  .next (aluInto Alu.xor x (.reg y) s)

/-- XOR in SHORT_IMMEDIATE mode (44_alu_instructions.md R183). -/
def execXorSI (x : Reg) (imm : Int) (s : State) : Host.Outcome State Fault Refusal :=
  .next (aluInto Alu.xor x (.short imm) s)

/-- XOR in WORD_IMMEDIATE mode (44_alu_instructions.md R183). -/
def execXorWI (x : Reg) (z : Word) (s : State) : Host.Outcome State Fault Refusal :=
  .next (aluInto Alu.xor x (.word z) s)

end Sys2Proof.Machine
end

