-- ==== Sys2Proof/Machine/Nop.lean ====
section
/-! DEFINITION. NOP (42_step_cycle.md R149): nothing beyond the pc advance that every step makes. -/

namespace Sys2Proof.Machine

/-- No effect of its own (42_step_cycle.md R149). -/
def noEffect (s : State) : State :=
  s

/-- NOP in REGISTER_REGISTER mode (42_step_cycle.md R149). -/
def execNopRR (s : State) : Host.Outcome State Fault Refusal :=
  .next (noEffect s)

/-- NOP in SHORT_IMMEDIATE mode (42_step_cycle.md R149). -/
def execNopSI (s : State) : Host.Outcome State Fault Refusal :=
  .next (noEffect s)

/-- NOP in WORD_IMMEDIATE mode (42_step_cycle.md R149). -/
def execNopWI (_z : Word) (s : State) : Host.Outcome State Fault Refusal :=
  .next (noEffect s)

end Sys2Proof.Machine
end

