-- ==== Sys2Proof/Machine/Shift.lean ====
section
/-! DEFINITION. RSH, USH (44_alu_instructions.md R181, R182). -/

namespace Sys2Proof.Machine

/-- RSH in REGISTER_REGISTER mode (44_alu_instructions.md R181). -/
def execRshRR (x : Reg) (y : Reg) (s : State) : Host.Outcome State Fault Refusal :=
  .next (aluInto Alu.rotateShift x (.reg y) s)

/-- RSH in SHORT_IMMEDIATE mode (44_alu_instructions.md R181). -/
def execRshSI (x : Reg) (imm : Int) (s : State) : Host.Outcome State Fault Refusal :=
  .next (aluInto Alu.rotateShift x (.short imm) s)

/-- RSH in WORD_IMMEDIATE mode (44_alu_instructions.md R181). -/
def execRshWI (x : Reg) (z : Word) (s : State) : Host.Outcome State Fault Refusal :=
  .next (aluInto Alu.rotateShift x (.word z) s)

/-- USH in REGISTER_REGISTER mode (44_alu_instructions.md R182). -/
def execUshRR (x : Reg) (y : Reg) (s : State) : Host.Outcome State Fault Refusal :=
  .next (aluInto Alu.unsignedShift x (.reg y) s)

/-- USH in SHORT_IMMEDIATE mode (44_alu_instructions.md R182). -/
def execUshSI (x : Reg) (imm : Int) (s : State) : Host.Outcome State Fault Refusal :=
  .next (aluInto Alu.unsignedShift x (.short imm) s)

/-- USH in WORD_IMMEDIATE mode (44_alu_instructions.md R182). -/
def execUshWI (x : Reg) (z : Word) (s : State) : Host.Outcome State Fault Refusal :=
  .next (aluInto Alu.unsignedShift x (.word z) s)

end Sys2Proof.Machine
end

