-- ==== Sys2Proof/Machine/Dispatch.lean ====
section
/-! DEFINITION. Phase 6 of a step, the dispatch on the opcode (42_step_cycle.md R148): one arm per row of the table. -/

namespace Sys2Proof.Machine

def exec (i : Instr) (s : State) : Host.Outcome State Fault Refusal :=
  match i with
  | .addRR x y => Sys2Proof.Machine.execAddRR x y s
  | .addSI x imm => Sys2Proof.Machine.execAddSI x imm s
  | .addWI x z => Sys2Proof.Machine.execAddWI x z s
  | .addcRR x y => Sys2Proof.Machine.execAddcRR x y s
  | .addcSI x imm => Sys2Proof.Machine.execAddcSI x imm s
  | .addcWI x z => Sys2Proof.Machine.execAddcWI x z s
  | .mulRR x y => Sys2Proof.Machine.execMulRR x y s
  | .mulSI x imm => Sys2Proof.Machine.execMulSI x imm s
  | .mulWI x z => Sys2Proof.Machine.execMulWI x z s
  | .divRR x y => Sys2Proof.Machine.execDivRR x y s
  | .divSI x imm => Sys2Proof.Machine.execDivSI x imm s
  | .divWI x z => Sys2Proof.Machine.execDivWI x z s
  | .modRR x y => Sys2Proof.Machine.execModRR x y s
  | .modSI x imm => Sys2Proof.Machine.execModSI x imm s
  | .modWI x z => Sys2Proof.Machine.execModWI x z s
  | .negRR x y => Sys2Proof.Machine.execNegRR x y s
  | .negSI x imm => Sys2Proof.Machine.execNegSI x imm s
  | .negWI x z => Sys2Proof.Machine.execNegWI x z s
  | .minRR x y => Sys2Proof.Machine.execMinRR x y s
  | .minSI x imm => Sys2Proof.Machine.execMinSI x imm s
  | .minWI x z => Sys2Proof.Machine.execMinWI x z s
  | .maxRR x y => Sys2Proof.Machine.execMaxRR x y s
  | .maxSI x imm => Sys2Proof.Machine.execMaxSI x imm s
  | .maxWI x z => Sys2Proof.Machine.execMaxWI x z s
  | .conRR x y => Sys2Proof.Machine.execConRR x y s
  | .conSI x imm => Sys2Proof.Machine.execConSI x imm s
  | .conWI x z => Sys2Proof.Machine.execConWI x z s
  | .anyRR x y => Sys2Proof.Machine.execAnyRR x y s
  | .anySI x imm => Sys2Proof.Machine.execAnySI x imm s
  | .anyWI x z => Sys2Proof.Machine.execAnyWI x z s
  | .rshRR x y => Sys2Proof.Machine.execRshRR x y s
  | .rshSI x imm => Sys2Proof.Machine.execRshSI x imm s
  | .rshWI x z => Sys2Proof.Machine.execRshWI x z s
  | .ushRR x y => Sys2Proof.Machine.execUshRR x y s
  | .ushSI x imm => Sys2Proof.Machine.execUshSI x imm s
  | .ushWI x z => Sys2Proof.Machine.execUshWI x z s
  | .nopRR => Sys2Proof.Machine.execNopRR s
  | .nopSI => Sys2Proof.Machine.execNopSI s
  | .nopWI z => Sys2Proof.Machine.execNopWI z s
  | .movRR x y => Sys2Proof.Machine.execMovRR x y s
  | .movSI x imm => Sys2Proof.Machine.execMovSI x imm s
  | .movWI x z => Sys2Proof.Machine.execMovWI x z s
  | .cmpRR x y => Sys2Proof.Machine.execCmpRR x y s
  | .cmpSI x imm => Sys2Proof.Machine.execCmpSI x imm s
  | .cmpWI x z => Sys2Proof.Machine.execCmpWI x z s
  | .jmpRR y => Sys2Proof.Machine.execJmpRR y s
  | .jmpSI imm => Sys2Proof.Machine.execJmpSI imm s
  | .jmpWI z => Sys2Proof.Machine.execJmpWI z s
  | .beqRR y => Sys2Proof.Machine.execBeqRR y s
  | .beqSI imm => Sys2Proof.Machine.execBeqSI imm s
  | .beqWI z => Sys2Proof.Machine.execBeqWI z s
  | .bgtRR y => Sys2Proof.Machine.execBgtRR y s
  | .bgtSI imm => Sys2Proof.Machine.execBgtSI imm s
  | .bgtWI z => Sys2Proof.Machine.execBgtWI z s
  | .bltRR y => Sys2Proof.Machine.execBltRR y s
  | .bltSI imm => Sys2Proof.Machine.execBltSI imm s
  | .bltWI z => Sys2Proof.Machine.execBltWI z s
  | .jalRR y => Sys2Proof.Machine.execJalRR y s
  | .jalSI imm => Sys2Proof.Machine.execJalSI imm s
  | .jalWI z => Sys2Proof.Machine.execJalWI z s
  | .lodRR x y => Sys2Proof.Machine.execLodRR x y s
  | .lodSI x imm => Sys2Proof.Machine.execLodSI x imm s
  | .lodWI x z => Sys2Proof.Machine.execLodWI x z s
  | .xorRR x y => Sys2Proof.Machine.execXorRR x y s
  | .xorSI x imm => Sys2Proof.Machine.execXorSI x imm s
  | .xorWI x z => Sys2Proof.Machine.execXorWI x z s

end Sys2Proof.Machine
end

