-- ==== Sys2Proof/Machine/Cycle.lean ====
section
/-! DEFINITION. The step (42_step_cycle.md R140 to R151): fault check, fetch, decode, second word, pc advance, dispatch. -/

namespace Sys2Proof.Machine

/-- What the fetch and decode of one step find at the pc. -/
inductive Fetched where
  /-- An instruction of the table. -/
  | instr (i : Instr)
  /-- The optional store, only where STA_OPCODE is set (43_data_movement.md R164). -/
  | sta (x : Reg) (o : Operand)
  /-- An illegal instruction word (60_exceptions.md R202). -/
  | illegal (w : Word)
deriving DecidableEq, Repr

/-- The length in words of an operand's instruction (30_encoding.md R51). -/
def Operand.length : Operand → Int
  | .reg _ => 1
  | .short _ => 1
  | .word _ => 2

/-- The operand of a mode, a y field and a second word (42_step_cycle.md R145). -/
def operandOf (m : Mode) (y : Int) (z : Word) : Operand :=
  match m with
  | .registerRegister => .reg (Reg.ofSelector y)
  | .shortImmediate => .short y
  | .wordImmediate => .word z

/-- The optional store (43_data_movement.md R164): the opcode field is the slot STA_OPCODE names and the mode is legal. -/
def decodeSta (sta : Option Config.FreeOpcode) (w z : Word) : Option (Reg × Operand) :=
  match sta with
  | none => none
  | some k =>
    if opcodeField w = k.code then
      match Mode.ofCode (modeField w) with
      | some m => some (Reg.ofSelector (xField w), operandOf m (yField w) z)
      | none => none
    else none

/-- Phase 1 (42_step_cycle.md R142): the instruction word at the pc. -/
def State.fetchWord (s : State) : Word :=
  s.mem.load s.pc

/-- Phase 3 (42_step_cycle.md R144): the word after the instruction word. Only a WORD_IMMEDIATE instruction uses it. -/
def State.secondWord (s : State) : Word :=
  s.mem.load (addressPlus s.pc 1)

/-- Phases 1 to 3 (42_step_cycle.md R142 to R144). -/
def fetchDecode (sta : Option Config.FreeOpcode) (s : State) : Fetched :=
  match decodeSta sta s.fetchWord s.secondWord with
  | some (x, o) => .sta x o
  | none =>
    match decode s.fetchWord s.secondWord with
    | .ok i => .instr i
    | .error _ => .illegal s.fetchWord

/-- One step with the parameter STA_OPCODE as an argument (42_step_cycle.md R151). A set latch stops the step
(R141); an illegal word takes the DecodeError (R143); else the pc advances (R146) and the opcode is
dispatched (R148). -/
def stepWith (sta : Option Config.FreeOpcode) (s : State) : Host.Outcome State Fault Refusal :=
  match s.latch with
  | .set a w => .fault (.decodeError a w)
  | .clear =>
    match fetchDecode sta s with
    | .illegal w => .next (takeDecodeError s w)
    | .sta x o => .next (storeFrom x o (s.advancePc o.length))
    | .instr i => exec i (s.advancePc i.length)

/-- The state with an instruction's two words stored at the pc and the address after it, and the latch clear: the state
`State.withFetchWord` answers. A number that stands for no word is not stored (20_memory.md R34). -/
def placeAtPc (s : State) (w1 w2 : Option Word) : State :=
  let put (v : Option Word) (a : Word) (m : Memory) : Memory :=
    match v with
    | some u => m.store u a
    | none => m
  { s with
    latch := .clear
    mem := put w1 s.pc (put w2 (addressPlus s.pc 1) s.mem) }

end Sys2Proof.Machine
end

