-- ==== Sys2Proof/Machine/Step.lean ====
section
/-! DEFINITION. `step`, one call of `next()` with STA_OPCODE at its default (42_step_cycle.md R140), and the host's
`withFetchWord` (assumption logs 4 and 5). -/

namespace Sys2Proof.Machine

/-- One step of the base machine (42_step_cycle.md R140, R151). -/
def step (s : State) : Host.Outcome State Fault Refusal :=
  stepWith Config.staOpcode s

/-- `s` with the instruction of bits `w` where the next step fetches: two 16-bit numbers, first word low, stored at the
pc and after it; the latch clear, since a step of a faulted instance fetches nothing (42_step_cycle.md R141). -/
def State.withFetchWord (s : State) (nbits w : Nat) : State :=
  placeAtPc s (wordOfBits (w % 2 ^ nbits)) (wordOfBits (w % 2 ^ nbits / 65536))

end Sys2Proof.Machine
end

