-- ==== Sys2Proof/Machine/Assembler.lean ====
section
/-! DEFINITION. The assembler's source syntax (30_encoding.md R76 to R86, 43_data_movement.md R162): text to program image. It is
surrounding software (00_scope.md R2), not part of the machine: no step uses it. Text is a list of characters. -/

namespace Sys2Proof.Machine

/-- The mnemonic of an opcode (30_encoding.md R54, R81). -/
def mnemonicText : Opcode → String
  | .add => "ADD"
  | .addc => "ADDC"
  | .mul => "MUL"
  | .div => "DIV"
  | .mod => "MOD"
  | .neg => "NEG"
  | .min => "MIN"
  | .max => "MAX"
  | .con => "CON"
  | .any => "ANY"
  | .rsh => "RSH"
  | .ush => "USH"
  | .nop => "NOP"
  | .mov => "MOV"
  | .cmp => "CMP"
  | .jmp => "JMP"
  | .beq => "BEQ"
  | .bgt => "BGT"
  | .blt => "BLT"
  | .jal => "JAL"
  | .lod => "LOD"
  | .xor => "XOR"

/-- What a mnemonic stands for (30_encoding.md R81): an opcode, or STA, which has none. -/
inductive Mnemonic where
  | opcode (o : Opcode)
  | sta
deriving DecidableEq, Repr

/-- The operand shapes of 30_encoding.md R81. -/
inductive Shape where
  | noOperand
  | destSrc
  | target
deriving DecidableEq, Repr

/-- The operand shape of an opcode's mnemonic (30_encoding.md R81). -/
def shapeOf : Opcode → Shape
  | .nop => .noOperand
  | .jmp => .target
  | .beq => .target
  | .bgt => .target
  | .blt => .target
  | .jal => .target
  | .add => .destSrc
  | .addc => .destSrc
  | .mul => .destSrc
  | .div => .destSrc
  | .mod => .destSrc
  | .neg => .destSrc
  | .min => .destSrc
  | .max => .destSrc
  | .con => .destSrc
  | .any => .destSrc
  | .rsh => .destSrc
  | .ush => .destSrc
  | .mov => .destSrc
  | .cmp => .destSrc
  | .lod => .destSrc
  | .xor => .destSrc

/-- What an assembly error names (30_encoding.md R78, R81). Operands are counted from 1. -/
inductive Culprit where
  | operation (name : List Char)
  | operand (k : Nat)
  | operandList
  | label (name : List Char)
  | address (a : Int)
deriving DecidableEq, Repr

/-- An assembly-time error (30_encoding.md R86, 60_exceptions.md R211, R213): its kind and what it names. -/
structure AsmError where
  kind : ErrorKind
  culprit : Culprit
deriving DecidableEq, Repr

/-- A space, tab or line end. -/
def isBlank (c : Char) : Bool :=
  decide (c = ' ') || decide (c = '\t') || decide (c = '\r') || decide (c = '\n')

/-- The text without blanks at its two ends. -/
def trim (s : List Char) : List Char :=
  ((s.dropWhile isBlank).reverse.dropWhile isBlank).reverse

/-- The pieces of a text between separators. -/
def pieces (sep : Char) : List Char → List (List Char)
  | [] => [[]]
  | c :: cs =>
    if c = sep then [] :: pieces sep cs
    else
      match pieces sep cs with
      | [] => [[c]]
      | p :: ps => (c :: p) :: ps

/-- A line that is not blank (30_encoding.md R76): a label, or a mnemonic with its operand tokens. -/
inductive Line where
  | label (name : List Char)
  | instr (mnemonic : List Char) (operands : List (List Char))
deriving DecidableEq, Repr

/-- One line of source text (30_encoding.md R76, R77): the comment stripped, the rest trimmed; none for a blank line. -/
def readLine (s : List Char) : Option Line :=
  match trim (s.takeWhile fun c => decide (c ≠ ';')) with
  | [] => none
  | '.' :: name => some (.label (trim name))
  | c :: cs =>
    let l := c :: cs
    let rest := l.dropWhile fun d => decide (d ≠ ' ')
    let operands := if trim rest = [] then [] else (pieces ',' rest).map trim
    some (.instr (l.takeWhile fun d => decide (d ≠ ' ')) operands)

/-- The lines of a source text (30_encoding.md R76), blank ones left out. -/
def readLines (text : List Char) : List Line :=
  (pieces '\n' text).filterMap readLine

/-- An operand token (30_encoding.md R78 to R80). -/
inductive Token where
  | reg (r : Reg)
  | imm (w : Word)
  | label (name : List Char)
deriving DecidableEq, Repr

/-- The name of a register in source text (30_encoding.md R78). -/
def registerText : Reg → String
  | .r0 => "r0"
  | .r1 => "r1"
  | .r2 => "r2"
  | .r3 => "r3"
  | .r4 => "r4"
  | .r5 => "r5"
  | .r6 => "r6"
  | .ra => "ra"
  | .sp => "sp"

/-- The nine registers. -/
def allRegisters : List Reg :=
  [.r0, .r1, .r2, .r3, .r4, .r5, .r6, .ra, .sp]

/-- A register token, in any letter case (30_encoding.md R78). -/
def readRegister (t : List Char) : Option Reg :=
  allRegisters.find? fun r => decide ((registerText r).toList = t.map Char.toLower)

/-- An operand token (30_encoding.md R78 to R80); none for a token that is none of the three. -/
def readToken (t : List Char) : Option Token :=
  match readRegister t with
  | some r => some (.reg r)
  | none =>
    match stringToWord t with
    | .ok w => some (.imm w)
    | .error _ =>
      match t with
      | '.' :: name => some (.label (trim name))
      | _ => none

/-- The meaning of a mnemonic (30_encoding.md R81, R162 for LDA). `anyCase` is ASM_MNEMONIC_CASE_INSENSITIVE (D31). -/
def readMnemonic (anyCase : Bool) (m : List Char) : Option Mnemonic :=
  let t := if anyCase then m.map Char.toUpper else m
  if t = "LDA".toList then some (.opcode .lod)
  else if t = "STA".toList then some .sta
  else
    match Opcode.all.find? fun o => decide ((mnemonicText o).toList = t) with
    | some o => some (.opcode o)
    | none => none

/-- A parsed instruction line: the opcode, the selector of the first of two operands (0 where there are not two), and
the last operand. -/
structure Parsed where
  op : Opcode
  x : Int
  last : Option Token
deriving DecidableEq, Repr

/-- The second operand of a two-operand mnemonic: a register or an immediate; a label is not permitted (R80). -/
def readSrc (t : List Char) : Option Token :=
  match readToken t with
  | some (.label _) => none
  | other => other

/-- An instruction line by its mnemonic's shape (30_encoding.md R81). STA is refused with EncodeError. -/
def parseInstr (anyCase : Bool) (mnemonic : List Char) (operands : List (List Char)) :
    Except AsmError Parsed :=
  match readMnemonic anyCase mnemonic with
  | none => .error ⟨.argumentError, .operation mnemonic⟩
  | some .sta => .error ⟨.encodeError, .operation mnemonic⟩
  | some (.opcode o) =>
    match shapeOf o, operands with
    | .noOperand, [] => .ok ⟨o, 0, none⟩
    | .destSrc, [a, b] =>
      match readRegister a, readSrc b with
      | none, _ => .error ⟨.argumentError, .operand 1⟩
      | some _, none => .error ⟨.argumentError, .operand 2⟩
      | some r, some t => .ok ⟨o, r.selector, some t⟩
    | .target, [a] =>
      match readToken a with
      | none => .error ⟨.argumentError, .operand 1⟩
      | some t => .ok ⟨o, 0, some t⟩
    | _, _ => .error ⟨.argumentError, .operandList⟩

/-- The addressing mode from the shape of the last operand (30_encoding.md R82). -/
def chooseMode : Option Token → Mode
  | none => .registerRegister
  | some (.reg _) => .registerRegister
  | some (.imm w) =>
    if -Config.shortImmMax ≤ w.val ∧ w.val ≤ Config.shortImmMax then .shortImmediate else .wordImmediate
  | some (.label _) => .wordImmediate

/-- The label table: the last declaration of a name stands (30_encoding.md R77). -/
abbrev Labels := List (List Char × Int)

/-- The address bound to a name. Names are compared exactly (30_encoding.md R77). -/
def lookupLabel (labels : Labels) (name : List Char) : Option Int :=
  (labels.find? fun l => decide (l.1 = name)).map Prod.snd

/-- What pass 1 has found so far (30_encoding.md R85): the address cursor, the labels, the names declared again (each a
warning, R77) and the instructions with their addresses, in source order. -/
structure Pass1 where
  cursor : Int
  labels : Labels
  warnings : List (List Char)
  items : List (Int × Parsed)
deriving DecidableEq, Repr

/-- One line in pass 1 (30_encoding.md R77, R85). -/
def pass1Line (anyCase : Bool) (st : Pass1) : Line → Except AsmError Pass1
  | .label name =>
    .ok { st with
      labels := (name, st.cursor) :: st.labels.filter fun l => decide (l.1 ≠ name)
      warnings := if (lookupLabel st.labels name).isSome then st.warnings ++ [name] else st.warnings }
  | .instr m operands =>
    match parseInstr anyCase m operands with
    | .error e => .error e
    | .ok p =>
      .ok { st with
        cursor := st.cursor + (chooseMode p.last).length
        items := st.items ++ [(st.cursor, p)] }

/-- Pass 1 over the lines, from the zero address (30_encoding.md R85). -/
def pass1 (anyCase : Bool) : List Line → Pass1 → Except AsmError Pass1
  | [], st => .ok st
  | l :: ls, st =>
    match pass1Line anyCase st l with
    | .error e => .error e
    | .ok st' => pass1 anyCase ls st'

/-- The y field of a parsed instruction (30_encoding.md R83). -/
def yOf : Option Token → Int
  | some (.reg r) => r.selector
  | some (.imm w) => if chooseMode (some (.imm w)) = .shortImmediate then w.val else 0
  | _ => 0

/-- The record of a parsed instruction (30_encoding.md R83), its label resolved by the table of pass 1. -/
def toRecord (labels : Labels) (p : Parsed) : Except AsmError Record :=
  match p.last with
  | some (.label name) =>
    match lookupLabel labels name with
    | none => .error ⟨.undeclaredLabelError, .label name⟩
    | some a =>
      match intToWord a with
      | .ok z => .ok ⟨p.op.code, .wordImmediate, p.x, 0, some (.word z)⟩
      | .error e => .error ⟨e, .label name⟩
  | some (.imm w) =>
    match chooseMode p.last with
    | .wordImmediate => .ok ⟨p.op.code, .wordImmediate, p.x, 0, some (.word w)⟩
    | m => .ok ⟨p.op.code, m, p.x, yOf p.last, none⟩
  | other => .ok ⟨p.op.code, .registerRegister, p.x, yOf other, none⟩

/-- A word stored at an integer address of the image; out of range fails (20_memory.md R34). -/
def placeWord (image : Memory) (a : Int) (w : Word) : Except AsmError Memory :=
  match intToWord a with
  | .ok address => .ok (image.store w address)
  | .error e => .error ⟨e, .address a⟩

/-- What an assembly returns (70_reset_and_hazards.md R238): the image; and the label table, the warnings and the
instruction records by address, which execution does not need (60_exceptions.md R219). -/
structure Assembled where
  image : Memory
  labels : Labels
  warnings : List (List Char)
  records : List (Int × Record)
deriving DecidableEq, Repr

/-- Pass 2 (30_encoding.md R85): each instruction encoded and stored at the address of pass 1. -/
def pass2 (labels : Labels) : List (Int × Parsed) → Memory → Except AsmError (Memory × List (Int × Record))
  | [], image => .ok (image, [])
  | (a, p) :: rest, image =>
    match toRecord labels p with
    | .error e => .error e
    | .ok r =>
      match encodeRecord r with
      | .error e => .error ⟨e, .address a⟩
      | .ok (w, z) =>
        match placeWord image a w with
        | .error e => .error e
        | .ok image1 =>
          match (match z with | some v => placeWord image1 (a + 1) v | none => .ok image1) with
          | .error e => .error e
          | .ok image2 =>
            match pass2 labels rest image2 with
            | .error e => .error e
            | .ok (image3, rs) => .ok (image3, (a, r) :: rs)

/-- `assemble(sourceText)` (70_reset_and_hazards.md R238, 30_encoding.md R76 to R86). An error gives no image (R85). -/
def assemble (anyCase : Bool) (text : List Char) : Except AsmError Assembled :=
  match pass1 anyCase (readLines text) ⟨0, [], [], []⟩ with
  | .error e => .error e
  | .ok st =>
    match pass2 st.labels st.items [] with
    | .error e => .error e
    | .ok (image, records) => .ok ⟨image, st.labels, st.warnings, records⟩

end Sys2Proof.Machine
end

