-- ==== Sys2Proof/Machine/HostPort.lean ====
section
/-! DEFINITION. The host boundary (70_reset_and_hazards.md R238 to R240): the four transactions HostLoad, HostStore, next and
reset, each an atomic event between steps, with the inputs and outputs of the table of R238; and the loading of
a program image (R233, R234). -/

namespace Sys2Proof.Machine

/-- What the host hands to `load` and `store` (20_memory.md R34): "either a word or a pre-converted integer". -/
inductive PortArg where
  | word (w : Word)
  | int (n : Int)
deriving DecidableEq, Repr

/-- The conversion at the port: a word is itself, an integer goes through intToWord (20_memory.md R34). -/
def PortArg.toWord : PortArg → Except ErrorKind Word
  | .word w => .ok w
  | .int n => intToWord n

/-- HostLoad (70_reset_and_hazards.md R238, R239). -/
def hostLoad (s : State) (address : PortArg) : Except ErrorKind Word :=
  match address.toWord with
  | .ok a => .ok (s.mem.load a)
  | .error e => .error e

/-- HostStore (70_reset_and_hazards.md R238, R239): both arguments are converted before anything is written
(60_exceptions.md R205), so a refused store writes nothing. -/
def hostStore (s : State) (value address : PortArg) : Except ErrorKind State :=
  match value.toWord, address.toWord with
  | .ok v, .ok a => .ok (s.setMem (s.mem.store v a))
  | .error e, _ => .error e
  | .ok _, .error e => .error e

/-- The four transactions (70_reset_and_hazards.md R238). -/
inductive Transaction where
  | load (address : PortArg)
  | store (value address : PortArg)
  | next
  | reset
deriving DecidableEq, Repr

/-- What a transaction returns to the host. -/
inductive Response where
  /-- The word of a HostLoad. -/
  | word (w : Word)
  /-- A HostStore, a next or a reset that is done. -/
  | done
  /-- RangeError at the port (60_exceptions.md R209). -/
  | error (k : ErrorKind)
  /-- DecodeError(address, word), the result of `next()` (60_exceptions.md R203, R204). -/
  | decodeError (pc w : Word)
  /-- An instruction without a meaning. No instruction is without one, so this is never answered. -/
  | refused (r : Refusal)
deriving DecidableEq, Repr

/-- The result of `next()` that a FAULT latch stands for. -/
def FaultLatch.report : FaultLatch → Response
  | .clear => .done
  | .set a w => .decodeError a w

/-- One transaction of a platform with the parameter STA_OPCODE: the new state and what the host is told. Only `next`
depends on the parameter (43_data_movement.md R164). -/
def transactWith (sta : Option Config.FreeOpcode) (t : Transaction) (s : State) : State × Response :=
  match t with
  | .load address =>
    match hostLoad s address with
    | .ok w => (s, .word w)
    | .error e => (s, .error e)
  | .store value address =>
    match hostStore s value address with
    | .ok s' => (s', .done)
    | .error e => (s, .error e)
  | .next =>
    match stepWith sta s with
    | .next s' => (s', s'.latch.report)
    | .fault (.decodeError a w) => (s, .decodeError a w)
    | .refused r => (s, .refused r)
  | .reset => (State.reset, .done)

/-- A sequence of transactions, in the host's order (70_reset_and_hazards.md R240). -/
def transactAllWith (sta : Option Config.FreeOpcode) : List Transaction → State → State × List Response
  | [], s => (s, [])
  | t :: ts, s =>
    let r := transactWith sta t s
    let rest := transactAllWith sta ts r.1
    (rest.1, r.2 :: rest.2)

/-- One transaction of the base machine: STA_OPCODE at its default. -/
def transact (t : Transaction) (s : State) : State × Response :=
  transactWith Config.staOpcode t s

/-- A sequence of transactions of the base machine. -/
def transactAll (ts : List Transaction) (s : State) : State × List Response :=
  transactAllWith Config.staOpcode ts s

/-- Loading a program image (70_reset_and_hazards.md R233, R234) as one HostStore per non-zero cell of it. DESIGN CHOICE
(assumption log 23): R234 allows this or a store per cell; the two agree on zeroed memory, such as that after reset. Here a
cell that holds the zero word in the image keeps what the memory held there. -/
def State.loadImage (s : State) (image : Memory) : State :=
  s.setMem (image.foldl (fun m c => m.setCell c.1 c.2) s.mem)

end Sys2Proof.Machine
end

