-- ==== Sys2Proof/Safety.lean ====
section
/-! DEFINITION. What counts as a sound state and a good step, and the words the statements use to say what an
instruction leaves unchanged. -/

namespace Sys2Proof.Machine

/-- Where the FAULT latch is set, the pc still holds the recorded address and the recorded word is illegal
(60_exceptions.md R203). -/
def State.latchSound (s : State) : Prop :=
  match s.latch with
  | .clear => True
  | .set a w => s.pc = a ∧ decode1 w = .error .decodeError

/-- The invariant of the machine: memory is in canonical form and the latch is sound. -/
def State.sound (s : State) : Prop :=
  s.mem.wf ∧ s.latchSound

/-- A good step: it executes an instruction and reports no error. -/
def goodStep (s : State) : Prop :=
  ∃ t, step s = .next t ∧ t.latch = .clear

/-- A safe run of k steps: every step of it is a good step. -/
def safeRun : Nat → State → Prop
  | 0, _ => True
  | k + 1, s => ∃ t, step s = .next t ∧ t.latch = .clear ∧ safeRun k t

/-- From s to t every cell of memory reads as before. -/
def sameCells (s t : State) : Prop :=
  ∀ a, t.mem.load a = s.mem.load a

/-- From s to t nothing changes but the register x: not another register, the pc, CF, the latch or a cell. -/
def changesOnlyReg (x : Reg) (s t : State) : Prop :=
  (∀ r, r ≠ x → t.reg r = s.reg r) ∧ t.pc = s.pc ∧ t.cf = s.cf ∧ t.latch = s.latch ∧ sameCells s t

/-- From s to t nothing changes but CF. -/
def changesOnlyCf (s t : State) : Prop :=
  (∀ r, t.reg r = s.reg r) ∧ t.pc = s.pc ∧ t.latch = s.latch ∧ sameCells s t

/-- From s to t nothing changes but the pc. -/
def changesOnlyPc (s t : State) : Prop :=
  (∀ r, t.reg r = s.reg r) ∧ t.cf = s.cf ∧ t.latch = s.latch ∧ sameCells s t

/-- `i` completes from `s`: exec answers a next state, and Q holds of it. -/
def runsTo (i : Instr) (s : State) (Q : State → Prop) : Prop :=
  ∃ t, exec i s = .next t ∧ Q t

/-- P holds of an instruction in each of its three addressing modes and of the src operand that mode gives it
(42_step_cycle.md R145): any register; the two trits p q of any short immediate, src = ext9(p q); any word. -/
def inAllModes (rr : Reg → Instr) (si : Int → Instr) (wi : Word → Instr) (s : State)
    (P : Instr → Word → Prop) : Prop :=
  (∀ y, P (rr y) (s.reg y))
    ∧ (∀ p q, P (si (digitsToInt [p, q])) (ext9 [p, q]))
    ∧ (∀ z, P (wi z) z)

/-- The opcode value of an instruction. -/
def opcodeOf (i : Instr) : Int :=
  i.toRecord.opcode

/-- The register an instruction writes (10_state.md R15): the x register of a MOV, a LOD or an ALU instruction, ra for a
JAL, none for NOP (0), CMP (2), JMP (3), BEQ (4), BGT (5) and BLT (6). -/
def writtenReg (i : Instr) : Option Reg :=
  if opcodeOf i = 0 ∨ (2 ≤ opcodeOf i ∧ opcodeOf i ≤ 6) then none
  else if opcodeOf i = 7 then some .ra
  else some (Reg.ofSelector i.toRecord.x)

end Sys2Proof.Machine
end

