-- ==== Sys2Proof/Certificates/Slice0/Obligations.lean ====
section
/-! DEFINITION. The statements for the provers. Every statement about an instruction speaks of `exec`, the execute phase: the
pc of its start state is the pc already advanced past the instruction (42_step_cycle.md R146). -/

open Sys2Proof Sys2Proof.Machine

/-! ### The numeral codec -/

/-- 40_numeral_codec.md R93: the value is the positional sum, lies in -9841 to +9841, and is negated with the trits. -/
def Obligations.WordValueIsThePositionalSum : Prop :=
  ∀ w : Word,
    w.val = ((List.range 9).map fun i => (w.trit i).val * 3 ^ (8 - i)).sum
      ∧ -9841 ≤ w.val ∧ w.val ≤ 9841
      ∧ (Word.ofFn fun i => Alu.negTrit (w.trit i)).val = -w.val

/-- 40_numeral_codec.md R94: in range the one word of the value, outside RangeError. -/
def Obligations.IntToWordIsExactOrRangeError : Prop :=
  ∀ n : Int,
    (-9841 ≤ n ∧ n ≤ 9841 → ∃ w, intToWord n = .ok w ∧ w.val = n ∧ ∀ v : Word, v.val = n → v = w)
      ∧ (n < -9841 ∨ 9841 < n → intToWord n = .error .rangeError)

/-- 40_numeral_codec.md R91: nine characters of the alphabet, each giving its trit, and FormatError otherwise. -/
def Obligations.SignStringsAreReadExactly : Prop :=
  ∀ s : List Char,
    (s.length = 9 ∧ (∀ c ∈ s, c = '-' ∨ c = 'o' ∨ c = '+') →
      ∃ w, stringToWord s = .ok w ∧ ∀ k < 9, s[k]? = some (w.trit k).char)
      ∧ (¬ (s.length = 9 ∧ ∀ c ∈ s, c = '-' ∨ c = 'o' ∨ c = '+') → stringToWord s = .error .formatError)

/-- 40_numeral_codec.md section 7 (R98): words, sign strings, integers and k-trit sequences convert back. The signatures of the
sequence functions are the spec's own decision D33. -/
def Obligations.CodecConversionsAreMutualInverses : Prop :=
  (∀ w : Word, intToWord w.val = .ok w)
    ∧ (∀ w : Word, stringToWord (wordToString w) = .ok w)
    ∧ (∀ (s : List Char) (w : Word), stringToWord s = .ok w → wordToString w = s)
    ∧ (∀ ds : List Trit, intToDigits (digitsToInt ds) ds.length = .ok ds)
    ∧ (∀ (n : Int) (k : Nat) (ds : List Trit), intToDigits n k = .ok ds → ds.length = k ∧ digitsToInt ds = n)
    ∧ (∀ ds : List Trit, ds.length ≤ 9 → (ext9 ds).val = digitsToInt ds)

/-- 00_scope.md section 5: wrap(n) is in range, differs from n by a multiple of 19683, and is the value of the word of
the low nine trits of n. -/
def Obligations.WrapIsTheValueOfTheLowNineTrits : Prop :=
  ∀ n : Int,
    -9841 ≤ wrap n ∧ wrap n ≤ 9841 ∧ (∃ c : Int, n = c * 19683 + wrap n) ∧ (wordOf n).val = wrap n

/-! ### Memory and the host port -/

/-- 20_memory.md R33: a store is read back at its address and leaves every other address alone. -/
def Obligations.StoreThenLoadReturnsTheValue : Prop :=
  ∀ (m : Memory) (v a : Word),
    (m.store v a).load a = v ∧ ∀ b, b ≠ a → (m.store v a).load b = m.load b

/-- The model's own form of memory (assumption log 1): canonical memories with equal cells are equal data. -/
def Obligations.CanonicalMemoriesWithEqualCellsAreEqual : Prop :=
  ∀ m n : Memory, m.wf → n.wf → (∀ a, m.load a = n.load a) → m = n

/-- 20_memory.md section 1 (R34) and 60_exceptions.md section 4 (R209): an integer argument out of range refuses the transaction and changes
nothing; an integer in range acts as the word of its value. -/
def Obligations.HostPortRefusesIntegersOutOfRange : Prop :=
  ∀ (s : State) (n : Int) (arg : PortArg) (a : Word),
    (n < -9841 ∨ 9841 < n →
      transact (.load (.int n)) s = (s, .error .rangeError)
        ∧ transact (.store arg (.int n)) s = (s, .error .rangeError)
        ∧ transact (.store (.int n) arg) s = (s, .error .rangeError))
      ∧ transact (.load (.int a.val)) s = transact (.load (.word a)) s
      ∧ transact (.store arg (.int a.val)) s = transact (.store arg (.word a)) s
      ∧ transact (.store (.int a.val) arg) s = transact (.store (.word a) arg) s

/-- 70_reset_and_hazards.md section 3 (R239): a HostStore is read back by HostLoad, whatever the FAULT latch holds, and changes
that one cell only. -/
def Obligations.HostStoreChangesOneCellOnly : Prop :=
  ∀ (s : State) (v a : Word),
    ∃ t, transact (.store (.word v) (.word a)) s = (t, .done)
      ∧ transact (.load (.word a)) t = (t, .word v)
      ∧ (∀ b, b ≠ a → transact (.load (.word b)) t = (t, .word (s.mem.load b)))
      ∧ t.regs = s.regs ∧ t.pc = s.pc ∧ t.cf = s.cf ∧ t.latch = s.latch

/-! ### Encoding -/

/-- 30_encoding.md section 2 (R53; the layout is the spec's own decision D2): the fields give the value of the word, each in
its range. -/
def Obligations.FieldsSumToTheWordValue : Prop :=
  ∀ w : Word,
    w.val = opcodeField w * 729 + modeField w * 81 + xField w * 9 + yField w
      ∧ (-13 ≤ opcodeField w ∧ opcodeField w ≤ 13) ∧ (-4 ≤ modeField w ∧ modeField w ≤ 4)
      ∧ (-4 ≤ xField w ∧ xField w ≤ 4) ∧ (-4 ≤ yField w ∧ yField w ≤ 4)

/-- 30_encoding.md section 4 (R55, R56; mode codes are the spec's own decision D3): decode fails on exactly the illegal opcode
and mode values, always with DecodeError, whatever the other fields and the second word hold. -/
def Obligations.DecodeFailsExactlyOnIllegalFields : Prop :=
  ∀ w z : Word,
    if (opcodeField w = -12 ∨ 10 ≤ opcodeField w) ∨ (modeField w < 0 ∨ 2 < modeField w) then
      decode w z = .error .decodeError
    else ∃ i, decode w z = .ok i ∧ opcodeOf i = opcodeField w ∧ i.mode.code = modeField w

/-- 30_encoding.md section 5 (R62; the spec's own decision D5): two words that agree on every field the instruction uses decode alike.
NOP uses neither x nor y, the control-flow opcodes 3 to 7 do not use x, WORD_IMMEDIATE does not use y. -/
def Obligations.IgnoredFieldsDoNotMatter : Prop :=
  ∀ w v z : Word,
    opcodeField v = opcodeField w → modeField v = modeField w →
    (opcodeField w = 0 ∨ (3 ≤ opcodeField w ∧ opcodeField w ≤ 7) ∨ xField v = xField w) →
    (opcodeField w = 0 ∨ modeField w = 2 ∨ yField v = yField w) →
    decode v z = decode w z

/-- 30_encoding.md section 7 (R66) for records: what encode accepts decodes to itself, y taken as 0 under WORD_IMMEDIATE.
It rests on the layout, the spec's own decision D2. -/
def Obligations.RecordDecodeInvertsEncode : Prop :=
  ∀ (r : Record) (w : Word) (z : Option Word) (z2 : Word),
    encodeRecord r = .ok (w, z) →
    decodeRecord w (z.getD z2)
      = .ok { r with y := if r.mode = .wordImmediate then 0 else r.y }

/-- 30_encoding.md section 7 (R66) for all 66 constructors: decode of encode of a well-formed instruction is the
instruction, with one word exactly where its mode has one. It rests on the layout, the spec's own decision D2. -/
def Obligations.DecodeInvertsEncode : Prop :=
  ∀ i : Instr, i.wf →
    ∃ w z, encode i = .ok (w, z) ∧ (z.isSome = true ↔ i.mode = .wordImmediate)
      ∧ ∀ z2, decode w (z.getD z2) = .ok i

/-- 30_encoding.md section 7 (R66): a legal word decodes to an instruction whose encoding has the same opcode and mode,
the same x unless the opcode ignores it, the same y unless opcode or mode ignores it, 0 in the ignored fields, and
the same second word. It rests on the layout, the spec's own decision D2. -/
def Obligations.EncodeInvertsDecodeUpToIgnoredFields : Prop :=
  ∀ (w z : Word) (i : Instr), decode w z = .ok i →
    ∃ v u, encode i = .ok (v, u)
      ∧ opcodeField v = opcodeField w ∧ modeField v = modeField w
      ∧ xField v = (if opcodeField w = 0 ∨ (3 ≤ opcodeField w ∧ opcodeField w ≤ 7) then 0 else xField w)
      ∧ yField v = (if opcodeField w = 0 ∨ modeField w = 2 then 0 else yField w)
      ∧ u = (if modeField w = 2 then some z else none)

/-- 30_encoding.md section 7 (R65; the opcode and z checks are the spec's own decision D34): encode refuses, with EncodeError,
exactly the ill-formed records. -/
def Obligations.EncodeErrorExactlyOnIllFormedRecords : Prop :=
  ∀ r : Record,
    (r.wf → ∃ w z, encodeRecord r = .ok (w, z)) ∧ (¬ r.wf → encodeRecord r = .error .encodeError)

/-- 30_encoding.md section 6 (R63): what decode answers is well-formed. -/
def Obligations.DecodedInstructionsAreWellFormed : Prop :=
  ∀ (w z : Word) (i : Instr), decode w z = .ok i → i.wf

/-- 30_encoding.md section 8 (R67): words of the spec's table of worked encodings (its own layout, D2 to D4). -/
def Obligations.WorkedWordsDecode : Prop :=
  ∀ z : Word,
    decode Word.zero z = .ok .nopRR
      ∧ decode ⟨.zero, .zero, .pos, .zero, .pos, .neg, .neg, .zero, .pos⟩ z = .ok (.movSI .r0 1)
      ∧ decode ⟨.neg, .neg, .neg, .zero, .zero, .neg, .neg, .neg, .zero⟩ z = .ok (.addRR .r0 .r1)
      ∧ decode ⟨.zero, .pos, .neg, .zero, .zero, .neg, .neg, .neg, .zero⟩ z = .ok (.cmpRR .r0 .r1)
      ∧ decode ⟨.zero, .pos, .zero, .pos, .neg, .zero, .zero, .zero, .zero⟩ z = .ok (.jmpWI z)
      ∧ decode ⟨.pos, .zero, .neg, .pos, .neg, .neg, .zero, .zero, .zero⟩ z = .ok (.lodWI .r1 z)
      ∧ decode ⟨.zero, .zero, .neg, .zero, .pos, .pos, .neg, .neg, .pos⟩ z = .ok (.ushSI .r6 (-2))

/-! ### Reset and the invariant -/

/-- 10_state.md section 8 (R24, the rows the source states): after reset every register, the pc and every cell is zero. -/
def Obligations.ResetZeroesRegistersPcAndMemory : Prop :=
  (∀ r, (State.reset.reg r).val = 0) ∧ State.reset.pc.val = 0 ∧ ∀ a, (State.reset.mem.load a).val = 0

/-- The spec's own decision D27, not a statement of the source (10_state.md section 8; assumption log 2): after reset CF
is 0 and the FAULT latch is clear. -/
def Obligations.ResetClearsFlagAndLatch : Prop :=
  State.reset.cf.val = 0 ∧ State.reset.latch = .clear

/-- The state after reset meets the invariant (the model's memory form, assumption log 1; the latch, D25). -/
def Obligations.ResetIsSound : Prop :=
  State.reset.sound

/-- Every step keeps the invariant, from every sound state and for every value of STA_OPCODE: memory stays canonical
(assumption log 1), a set latch holds the address the pc still holds and an illegal word (D25). -/
def Obligations.StepKeepsTheStateSound : Prop :=
  ∀ (sta : Option Config.FreeOpcode) (s t : State), s.sound → stepWith sta s = .next t → t.sound

/-- Every sequence of the host's transactions keeps the invariant, for every value of STA_OPCODE (70_reset_and_hazards.md
section 3; assumption log 1, D25). -/
def Obligations.HostTransactionsKeepTheStateSound : Prop :=
  ∀ (sta : Option Config.FreeOpcode) (ts : List Transaction) (s : State),
    s.sound → (transactAllWith sta ts s).1.sound

/-! ### The step -/

/-- 42_step_cycle.md section 1 (R140 to R148): with the latch clear, a step runs the decoded instruction from the state whose
pc is advanced by its length, 1 or 2 words, with wrap (the spec's own decision D8). -/
def Obligations.StepRunsTheDecodedInstruction : Prop :=
  ∀ (s : State) (i : Instr), s.latch = .clear →
    decode (s.mem.load s.pc) (s.mem.load (addressPlus s.pc 1)) = .ok i →
    ∃ npc : Word, npc.val = wrap (s.pc.val + if i.mode = .wordImmediate then 2 else 1)
      ∧ step s = exec i { s with pc := npc }

/-- 42_step_cycle.md section 1 (R143) and 60_exceptions.md section 2 (R203; the spec's own decision D25): an illegal word sets the
latch with the pc and the word, changes nothing else, and the result of `next()` is the DecodeError. That `step` answers this
state as a next state is the model's own choice (assumption log 3). -/
def Obligations.IllegalWordTakesTheDecodeError : Prop :=
  ∀ s : State, s.latch = .clear →
    (opcodeField (s.mem.load s.pc) = -12 ∨ 10 ≤ opcodeField (s.mem.load s.pc)
      ∨ modeField (s.mem.load s.pc) < 0 ∨ 2 < modeField (s.mem.load s.pc)) →
    step s = .next { s with latch := .set s.pc (s.mem.load s.pc) }
      ∧ transact .next s
          = ({ s with latch := .set s.pc (s.mem.load s.pc) }, .decodeError s.pc (s.mem.load s.pc))

/-- 42_step_cycle.md section 1 (R141; the spec's own decision D25): while the latch is set `next()` changes nothing and
reports the recorded error again. That `step` stops with it as a fault is the model's own choice (assumption log 3). -/
def Obligations.FaultedStepOnlyReports : Prop :=
  ∀ (s : State) (a w : Word), s.latch = .set a w →
    step s = .fault (.decodeError a w) ∧ transact .next s = (s, .decodeError a w)

/-- 60_exceptions.md section 2 (R203; the spec's own decision D25): whatever transactions other than reset follow, a faulted instance keeps
its latch, registers, pc and CF, for every value of STA_OPCODE; a reset gives the reset state. -/
def Obligations.OnlyResetClearsTheLatch : Prop :=
  ∀ (sta : Option Config.FreeOpcode) (ts : List Transaction) (s : State) (a w : Word), s.latch = .set a w →
    transactWith sta .reset s = (State.reset, .done)
      ∧ (.reset ∉ ts →
          (transactAllWith sta ts s).1.latch = .set a w ∧ (transactAllWith sta ts s).1.regs = s.regs
            ∧ (transactAllWith sta ts s).1.pc = s.pc ∧ (transactAllWith sta ts s).1.cf = s.cf)

/-- 60_exceptions.md section 1 (R201) with 42_step_cycle.md section 1 (R148): no execute phase fails, whatever STA_OPCODE is. With
the latch clear every step answers a next state, on an illegal word too, which is the model's own choice (assumption log 3);
the latch is then set only on an illegal word. -/
def Obligations.ClearLatchStepAlwaysAnswersNext : Prop :=
  ∀ (sta : Option Config.FreeOpcode) (s : State), s.latch = .clear →
    ∃ t, stepWith sta s = .next t
      ∧ (t.latch = .clear ∨ decode1 (s.mem.load s.pc) = .error .decodeError)

/-- 43_data_movement.md section 4 (R164; no store opcode is the spec's own decision D14): no step of the base machine writes memory. -/
def Obligations.NoStepWritesMemory : Prop :=
  ∀ s t : State, step s = .next t → t.mem = s.mem

/-- 10_state.md R18: CMP (opcode 2) alone writes CF, so CF outlives every other instruction; BEQ, BGT and BLT (4, 5, 6)
alone read it: no other instruction's effect depends on it. -/
def Obligations.CmpAloneWritesAndBranchesAloneReadTheFlag : Prop :=
  (∀ (i : Instr) (s t : State), opcodeOf i ≠ 2 → exec i s = .next t → t.cf = s.cf)
    ∧ (∀ (i : Instr) (s : State) (c : Trit), opcodeOf i < 4 ∨ 6 < opcodeOf i →
        ∃ t, exec i s = .next t
          ∧ exec i (s.setCf c) = .next (if opcodeOf i = 2 then t else t.setCf c))
    ∧ (∀ (s t : State), step s = .next t → opcodeField (s.mem.load s.pc) ≠ 2 → t.cf = s.cf)

/-- 10_state.md section 2 (R15) with 42_step_cycle.md section 1 (R148): an instruction writes no register but the one
`writtenReg` names: x for MOV, LOD and the ALU instructions, ra for JAL, none for NOP, CMP, JMP, BEQ, BGT, BLT. -/
def Obligations.OnlyTheDestinationRegisterChanges : Prop :=
  ∀ (i : Instr) (s t : State) (r : Reg), exec i s = .next t → writtenReg i ≠ some r → t.reg r = s.reg r

/-- 10_state.md section 3 (R16): outside the five control-flow opcodes (3 to 7) the pc is written by the advance alone;
the latch is changed by no instruction (section 5, R19; the spec's own decision D25). That no instruction changes a cell is
43_data_movement.md section 4 (R164, the spec's own decision D14; assumption log 6). -/
def Obligations.OnlyControlFlowReplacesThePc : Prop :=
  ∀ (i : Instr) (s t : State), exec i s = .next t →
    (opcodeOf i < 3 ∨ 7 < opcodeOf i → t.pc = s.pc) ∧ t.latch = s.latch ∧ sameCells s t

/-- 20_memory.md section 6 (R44): a step whose instruction word the host has just stored runs that word; the store has
left the registers, pc, CF, latch and every other cell as they were. -/
def Obligations.StoredWordIsFetchedByTheNextStep : Prop :=
  ∀ (s : State) (w : Word) (i : Instr), s.latch = .clear →
    decode w ((s.mem.store w s.pc).load (addressPlus s.pc 1)) = .ok i →
    ∃ t, transact (.store (.word w) (.word s.pc)) s = (t, .done)
      ∧ step t = exec i { t with pc := addressPlus s.pc i.length }
      ∧ t.regs = s.regs ∧ t.pc = s.pc ∧ t.cf = s.cf ∧ t.latch = s.latch
      ∧ ∀ b, b ≠ s.pc → t.mem.load b = s.mem.load b

/-- 43_data_movement.md section 4 (R164, the spec's own invention D14): where STA_OPCODE is set to a slot, a word with that opcode and
a legal mode stores the register of its x field at the src address, nothing else but the pc changes, and `next()` is done. -/
def Obligations.ConfiguredStoreWritesOneCell : Prop :=
  ∀ (k : Config.FreeOpcode) (s : State) (m : Mode), s.latch = .clear →
    opcodeField (s.mem.load s.pc) = k.code → Mode.ofCode (modeField (s.mem.load s.pc)) = some m →
    ∃ t, stepWith (some k) s = .next t
      ∧ t.mem = s.mem.store (s.reg (Reg.ofSelector (xField (s.mem.load s.pc))))
          (match m with
            | .registerRegister => s.reg (Reg.ofSelector (yField (s.mem.load s.pc)))
            | .shortImmediate => wordOf (yField (s.mem.load s.pc))
            | .wordImmediate => s.mem.load (addressPlus s.pc 1))
      ∧ t.pc = addressPlus s.pc m.length ∧ t.regs = s.regs ∧ t.cf = s.cf ∧ t.latch = .clear
      ∧ transactWith (some k) .next s = (t, .done)

/-- 43_data_movement.md section 4 (R164, the spec's own decision D14): setting STA_OPCODE changes nothing but the words of its slot:
neither the step nor, of the host's transactions, any. -/
def Obligations.ConfiguredStoreTouchesNoOtherOpcode : Prop :=
  ∀ (k : Config.FreeOpcode) (s : State),
    opcodeField (s.mem.load s.pc) ≠ k.code ∨ Mode.ofCode (modeField (s.mem.load s.pc)) = none →
    stepWith (some k) s = step s ∧ ∀ t : Transaction, transactWith (some k) t s = transact t s

/-! ### The ALU functions -/

/-- 41_alu_functions.md R120: add is the wrapped sum, is what the ripple of nine full adders gives, and with that ripple's
carry makes the whole sum; it is commutative and associative. -/
def Obligations.AddIsTheRippleOfFullAdders : Prop :=
  ∀ a b c : Word,
    (Alu.add a b).val = wrap (a.val + b.val)
      ∧ (Alu.rippleAdd a b).1 = Alu.add a b
      ∧ a.val + b.val = (Alu.rippleAdd a b).2.val * 19683 + (Alu.add a b).val
      ∧ Alu.add a b = Alu.add b a
      ∧ Alu.add (Alu.add a b) c = Alu.add a (Alu.add b c)

/-- 41_alu_functions.md R113 and R114: min and max take the lesser and the greater trit at each position; both are
commutative, associative and idempotent, with `---------` and `+++++++++` as bounds, dual under negation, and
not the integer minimum. -/
def Obligations.MinAndMaxAreThePerTritLattice : Prop :=
  (∀ a b c : Word,
    (∀ i < 9, ((Alu.min a b).trit i).val = min (a.trit i).val (b.trit i).val
        ∧ ((Alu.max a b).trit i).val = max (a.trit i).val (b.trit i).val)
      ∧ Alu.min a b = Alu.min b a ∧ Alu.max a b = Alu.max b a
      ∧ Alu.min (Alu.min a b) c = Alu.min a (Alu.min b c)
      ∧ Alu.max (Alu.max a b) c = Alu.max a (Alu.max b c)
      ∧ Alu.min a a = a ∧ Alu.max a a = a
      ∧ Alu.min a (wordOf 9841) = a ∧ Alu.min a (wordOf (-9841)) = wordOf (-9841)
      ∧ Alu.max a (wordOf (-9841)) = a ∧ Alu.max a (wordOf 9841) = wordOf 9841
      ∧ Alu.max a b = Alu.negate a (Alu.min (Alu.negate a a) (Alu.negate a b)))
    ∧ ∃ a b : Word, (Alu.min a b).val ≠ min a.val b.val

/-- 41_alu_functions.md section 3 (R121, R122; the spec's own decision D18): for every pair, zero divisor or not, dividend =
quotient · divisor + remainder; a remainder by a divisor that is not 0 is below it in magnitude and has not the opposite sign
of the dividend. -/
def Obligations.QuotientAndRemainderMakeTheDividend : Prop :=
  ∀ a b : Word,
    a.val = (Alu.divide a b).val * b.val + (Alu.modulo a b).val
      ∧ (b.val ≠ 0 → (Alu.modulo a b).val.natAbs < b.val.natAbs ∧ 0 ≤ (Alu.modulo a b).val * a.val)

/-- 41_alu_functions.md section 4 (R126; the spec's own decision D24): a left shift multiplies by 3^n and wraps; a right shift
by m divides by 3^m and rounds to the nearest integer, never at a tie; nine places or more give zero. -/
def Obligations.ShiftScalesByPowersOfThree : Prop :=
  ∀ (a b : Word) (m : Nat), m ≤ 8 →
    (b.val = m → (Alu.unsignedShift a b).val = wrap (a.val * 3 ^ m))
      ∧ (b.val = -m → 2 * (a.val - (Alu.unsignedShift a b).val * 3 ^ m).natAbs < 3 ^ m)
      ∧ (b.val ≤ -9 ∨ 9 ≤ b.val → Alu.unsignedShift a b = Word.zero)

/-- 41_alu_functions.md section 4 (R125; the spec's own decision D23): rotations compose by adding counts modulo 9, so a
rotation by -n undoes one by n and no trit is lost. -/
def Obligations.RotationsComposeByAddingCounts : Prop :=
  ∀ a b c d : Word, (d.val - (b.val + c.val)) % 9 = 0 →
    Alu.rotateShift (Alu.rotateShift a b) c = Alu.rotateShift a d
      ∧ (b.val % 9 = 0 → Alu.rotateShift a b = a)

/-! ### The instructions, in all three addressing modes -/

/-- 44_alu_instructions.md section 2 (R171): ADD. -/
def Obligations.AddWritesTheWrappedSum : Prop :=
  ∀ (s : State) (x : Reg), inAllModes (.addRR x) (.addSI x) (.addWI x) s fun i src =>
    runsTo i s fun t => (t.reg x).val = wrap ((s.reg x).val + src.val) ∧ changesOnlyReg x s t

/-- 44_alu_instructions.md section 2 (R172; the meaning is the spec's own decision D17): ADDC. -/
def Obligations.AddcWritesTheCarryOut : Prop :=
  ∀ (s : State) (x : Reg), inAllModes (.addcRR x) (.addcSI x) (.addcWI x) s fun i src =>
    runsTo i s fun t =>
      (t.reg x).val
          = (if 9841 < (s.reg x).val + src.val then 1 else if (s.reg x).val + src.val < -9841 then -1 else 0)
        ∧ (s.reg x).val + src.val = (t.reg x).val * 19683 + wrap ((s.reg x).val + src.val)
        ∧ changesOnlyReg x s t

/-- 44_alu_instructions.md section 2 (R173; wrapping is the spec's own decision D16): MUL. -/
def Obligations.MulWritesTheWrappedProduct : Prop :=
  ∀ (s : State) (x : Reg), inAllModes (.mulRR x) (.mulSI x) (.mulWI x) s fun i src =>
    runsTo i s fun t => (t.reg x).val = wrap ((s.reg x).val * src.val) ∧ changesOnlyReg x s t

/-- 44_alu_instructions.md section 2 (R174; rounding and zero divisor are the spec's own decision D18): DIV. -/
def Obligations.DivWritesTheTruncatedQuotient : Prop :=
  ∀ (s : State) (x : Reg), inAllModes (.divRR x) (.divSI x) (.divWI x) s fun i src =>
    runsTo i s fun t =>
      (t.reg x).val = (if src.val = 0 then 0 else Int.tdiv (s.reg x).val src.val) ∧ changesOnlyReg x s t

/-- 44_alu_instructions.md section 2 (R175; sign and zero divisor are the spec's own decision D18): MOD. -/
def Obligations.ModWritesTheTruncatedRemainder : Prop :=
  ∀ (s : State) (x : Reg), inAllModes (.modRR x) (.modSI x) (.modWI x) s fun i src =>
    runsTo i s fun t =>
      (t.reg x).val = (if src.val = 0 then (s.reg x).val else Int.tmod (s.reg x).val src.val)
        ∧ changesOnlyReg x s t

/-- 44_alu_instructions.md section 2 (R176; that src is negated is the spec's own decision D19): NEG. -/
def Obligations.NegWritesTheNegatedOperand : Prop :=
  ∀ (s : State) (x : Reg), inAllModes (.negRR x) (.negSI x) (.negWI x) s fun i src =>
    runsTo i s fun t => (t.reg x).val = -src.val ∧ changesOnlyReg x s t

/-- 44_alu_instructions.md section 3 (R177, R178): MIN and MAX, trit by trit. -/
def Obligations.MinAndMaxWriteTheLesserAndGreaterTrits : Prop :=
  ∀ (s : State) (x : Reg),
    (inAllModes (.minRR x) (.minSI x) (.minWI x) s fun i src =>
      runsTo i s fun t =>
        (∀ k < 9, ((t.reg x).trit k).val = min ((s.reg x).trit k).val (src.trit k).val)
          ∧ changesOnlyReg x s t)
      ∧ inAllModes (.maxRR x) (.maxSI x) (.maxWI x) s fun i src =>
        runsTo i s fun t =>
          (∀ k < 9, ((t.reg x).trit k).val = max ((s.reg x).trit k).val (src.trit k).val)
            ∧ changesOnlyReg x s t

/-- 44_alu_instructions.md section 3 (R179, R180, R183; the tables are the spec's own decisions D20, D21, D22): CON, ANY and XOR,
trit by trit. -/
def Obligations.ConAnyXorWriteTheirTritTables : Prop :=
  ∀ (s : State) (x : Reg),
    (inAllModes (.conRR x) (.conSI x) (.conWI x) s fun i src =>
      runsTo i s fun t =>
        (∀ k < 9, ((t.reg x).trit k).val
            = if (s.reg x).trit k = src.trit k then (src.trit k).val else 0)
          ∧ changesOnlyReg x s t)
      ∧ (inAllModes (.anyRR x) (.anySI x) (.anyWI x) s fun i src =>
        runsTo i s fun t =>
          (∀ k < 9, ((t.reg x).trit k).val = Int.sign (((s.reg x).trit k).val + (src.trit k).val))
            ∧ changesOnlyReg x s t)
      ∧ inAllModes (.xorRR x) (.xorSI x) (.xorWI x) s fun i src =>
        runsTo i s fun t =>
          (∀ k < 9, ((t.reg x).trit k).val
              = if ((s.reg x).trit k).val * (src.trit k).val = 0
                then ((s.reg x).trit k).val + (src.trit k).val else 0)
            ∧ changesOnlyReg x s t

/-- 44_alu_instructions.md section 4 (R181; the spec's own decision D23): RSH moves the trit at index k + n (mod 9) to index k. -/
def Obligations.RshRotatesTheTrits : Prop :=
  ∀ (s : State) (x : Reg), inAllModes (.rshRR x) (.rshSI x) (.rshWI x) s fun i src =>
    runsTo i s fun t =>
      (∀ k : Nat, k < 9 → (t.reg x).trit k = (s.reg x).trit ((k + src.val) % 9).toNat) ∧ changesOnlyReg x s t

/-- 44_alu_instructions.md section 4 (R182; the spec's own decision D24): USH moves the trit at index k + n to index k, and zero
trits enter. -/
def Obligations.UshShiftsTheTrits : Prop :=
  ∀ (s : State) (x : Reg), inAllModes (.ushRR x) (.ushSI x) (.ushWI x) s fun i src =>
    runsTo i s fun t =>
      (∀ k : Nat, k < 9 → (t.reg x).trit k
          = if 0 ≤ k + src.val ∧ k + src.val ≤ 8 then (s.reg x).trit (k + src.val).toNat else .zero)
        ∧ changesOnlyReg x s t

/-- 43_data_movement.md section 1 (R160): MOV. -/
def Obligations.MovCopiesTheOperand : Prop :=
  ∀ (s : State) (x : Reg), inAllModes (.movRR x) (.movSI x) (.movWI x) s fun i src =>
    runsTo i s fun t => t.reg x = src ∧ changesOnlyReg x s t

/-- 43_data_movement.md section 2 (R161; that LOD reads at src is the spec's own decision D13): LOD. -/
def Obligations.LodLoadsTheAddressedCell : Prop :=
  ∀ (s : State) (x : Reg), inAllModes (.lodRR x) (.lodSI x) (.lodWI x) s fun i src =>
    runsTo i s fun t => t.reg x = s.mem.load src ∧ changesOnlyReg x s t

/-- 43_data_movement.md section 3 (R163; the sense is the spec's own decision D9, D10): CMP compares exactly, never modulo
anything, and CF = 0 exactly when the words are equal. -/
def Obligations.CmpRecordsTheSignOfTheDifference : Prop :=
  ∀ (s : State) (x : Reg), inAllModes (.cmpRR x) (.cmpSI x) (.cmpWI x) s fun i src =>
    runsTo i s fun t =>
      t.cf.val = Int.sign ((s.reg x).val - src.val) ∧ (t.cf = .zero ↔ s.reg x = src) ∧ changesOnlyCf s t

/-- 42_step_cycle.md section 2 (R149): NOP has no effect of its own in any mode. -/
def Obligations.NopChangesNothing : Prop :=
  ∀ (s : State) (z : Word),
    exec .nopRR s = .next s ∧ exec .nopSI s = .next s ∧ exec (.nopWI z) s = .next s

/-- 45_control_flow.md section 2 (R191; an absolute target is the spec's own decision D11): JMP. -/
def Obligations.JmpReplacesThePc : Prop :=
  ∀ s : State, inAllModes .jmpRR .jmpSI .jmpWI s fun i src =>
    runsTo i s fun t => t.pc = src ∧ changesOnlyPc s t

/-- 45_control_flow.md section 3 (R192, R193, R194; the coding and sense of CF are the spec's own decisions D9, D10): BEQ is taken on
CF = 0, BGT on CF = +1, BLT on CF = -1; not taken, the pc keeps its advanced value. -/
def Obligations.BranchesTestTheFlag : Prop :=
  ∀ s : State,
    (inAllModes .beqRR .beqSI .beqWI s fun i src =>
      runsTo i s fun t => t.pc = (if s.cf.val = 0 then src else s.pc) ∧ changesOnlyPc s t)
      ∧ (inAllModes .bgtRR .bgtSI .bgtWI s fun i src =>
        runsTo i s fun t => t.pc = (if s.cf.val = 1 then src else s.pc) ∧ changesOnlyPc s t)
      ∧ inAllModes .bltRR .bltSI .bltWI s fun i src =>
        runsTo i s fun t => t.pc = (if s.cf.val = -1 then src else s.pc) ∧ changesOnlyPc s t

/-- 45_control_flow.md section 4 (R195): JAL. That ra gets the advanced pc is the spec's own decision D12, that the
target is absolute its D11 (assumption log 13), that src is read before ra is written, so that `JAL ra` jumps to the old ra,
its D35 (assumption log 15). -/
def Obligations.JalLinksAndJumps : Prop :=
  ∀ s : State, inAllModes .jalRR .jalSI .jalWI s fun i src =>
    runsTo i s fun t =>
      t.pc = src ∧ t.reg .ra = s.pc ∧ (∀ r, r ≠ .ra → t.reg r = s.reg r)
        ∧ t.cf = s.cf ∧ t.latch = s.latch ∧ sameCells s t

/-- 45_control_flow.md section 3 (R192, R193, R194; the sense is the spec's own decision D10, the absolute target its D11): after a
CMP in any mode, in every later state that still holds its CF, a BEQ, BGT or BLT in any mode is taken exactly as the compared
values were equal, greater or less. -/
def Obligations.ComparedValuesDecideTheBranch : Prop :=
  ∀ (s : State) (x : Reg), inAllModes (.cmpRR x) (.cmpSI x) (.cmpWI x) s fun i src =>
    runsTo i s fun t => ∀ u : State, u.cf = t.cf →
      (inAllModes .beqRR .beqSI .beqWI u fun j target =>
        runsTo j u fun v =>
          v.pc = (if (s.reg x).val = src.val then target else u.pc) ∧ changesOnlyPc u v)
        ∧ (inAllModes .bgtRR .bgtSI .bgtWI u fun j target =>
          runsTo j u fun v =>
            v.pc = (if (s.reg x).val > src.val then target else u.pc) ∧ changesOnlyPc u v)
        ∧ inAllModes .bltRR .bltSI .bltWI u fun j target =>
          runsTo j u fun v =>
            v.pc = (if (s.reg x).val < src.val then target else u.pc) ∧ changesOnlyPc u v

/-! ### The assembler's syntax -/

/-- 30_encoding.md section 9 (R82) and 95_test_vectors.md S6: an immediate of magnitude at most 4 assembles in SHORT_IMMEDIATE mode with itself
as y, a greater one in WORD_IMMEDIATE mode with itself as second word. -/
def Obligations.ImmediateMagnitudeChoosesTheMode : Prop :=
  ∀ (o : Opcode) (x : Int) (w : Word) (labels : Labels),
    toRecord labels ⟨o, x, some (.imm w)⟩
      = .ok (if w.val.natAbs ≤ 4 then ⟨o.code, .shortImmediate, x, w.val, none⟩
             else ⟨o.code, .wordImmediate, x, 0, some (.word w)⟩)

/-- 95_test_vectors.md S5 (30_encoding.md R85): where pass 1 reads an instruction line, it records the instruction at the cursor
and advances the cursor by as many words as pass 2 encodes for it. -/
def Obligations.PassesAgreeOnTheLength : Prop :=
  ∀ (anyCase : Bool) (st st' : Pass1) (m : List Char) (ops : List (List Char)) (a : Int) (p : Parsed)
      (labels : Labels) (r : Record) (w : Word) (z : Option Word),
    pass1Line anyCase st (.instr m ops) = .ok st' → st'.items = st.items ++ [(a, p)] →
    toRecord labels p = .ok r → encodeRecord r = .ok (w, z) →
    a = st.cursor ∧ st'.cursor = st.cursor + if z.isSome then 2 else 1
end

