-- ==== Sys2Proof/Laws/Codec.lean ====
section
/-! SUPPORT. What the codec functions answer (40_numeral_codec.md): ranges, one-to-one values, and the numerals of
k trits. -/

namespace Sys2Proof

@[simp] theorem Trit.val_neg : Trit.neg.val = -1 := rfl
@[simp] theorem Trit.val_zero : Trit.zero.val = 0 := rfl
@[simp] theorem Trit.val_pos : Trit.pos.val = 1 := rfl

theorem Trit.val_range (t : Trit) : -1 ≤ t.val ∧ t.val ≤ 1 := by
  cases t <;> decide

theorem Trit.val_injective {p q : Trit} (h : p.val = q.val) : p = q := by
  cases p <;> cases q <;> first | rfl | exact absurd h (by decide)

/-- The value of a word lies in -9841 to +9841. -/
theorem Word.val_range (w : Word) : -9841 ≤ w.val ∧ w.val ≤ 9841 := by
  have h0 := w.t0.val_range; have h1 := w.t1.val_range; have h2 := w.t2.val_range
  have h3 := w.t3.val_range; have h4 := w.t4.val_range; have h5 := w.t5.val_range
  have h6 := w.t6.val_range; have h7 := w.t7.val_range; have h8 := w.t8.val_range
  unfold Word.val
  omega

/-- Two words of one value are one word. -/
theorem Word.val_injective {v w : Word} (h : v.val = w.val) : v = w := by
  have a0 := v.t0.val_range; have a1 := v.t1.val_range; have a2 := v.t2.val_range
  have a3 := v.t3.val_range; have a4 := v.t4.val_range; have a5 := v.t5.val_range
  have a6 := v.t6.val_range; have a7 := v.t7.val_range; have a8 := v.t8.val_range
  have b0 := w.t0.val_range; have b1 := w.t1.val_range; have b2 := w.t2.val_range
  have b3 := w.t3.val_range; have b4 := w.t4.val_range; have b5 := w.t5.val_range
  have b6 := w.t6.val_range; have b7 := w.t7.val_range; have b8 := w.t8.val_range
  unfold Word.val at h
  have e0 : v.t0.val = w.t0.val := by omega
  have e1 : v.t1.val = w.t1.val := by omega
  have e2 : v.t2.val = w.t2.val := by omega
  have e3 : v.t3.val = w.t3.val := by omega
  have e4 : v.t4.val = w.t4.val := by omega
  have e5 : v.t5.val = w.t5.val := by omega
  have e6 : v.t6.val = w.t6.val := by omega
  have e7 : v.t7.val = w.t7.val := by omega
  have e8 : v.t8.val = w.t8.val := by omega
  exact Word.ext (Trit.val_injective e0) (Trit.val_injective e1) (Trit.val_injective e2)
    (Trit.val_injective e3) (Trit.val_injective e4) (Trit.val_injective e5)
    (Trit.val_injective e6) (Trit.val_injective e7) (Trit.val_injective e8)

/-- A word is known by its trits at indices 0 to 8. -/
theorem Word.ext_trit {v w : Word} (h : ∀ i < 9, v.trit i = w.trit i) : v = w :=
  Word.ext (h 0 (by decide)) (h 1 (by decide)) (h 2 (by decide)) (h 3 (by decide)) (h 4 (by decide))
    (h 5 (by decide)) (h 6 (by decide)) (h 7 (by decide)) (h 8 (by decide))

theorem Word.trit_ofFn (f : Nat → Trit) {i : Nat} (h : i < 9) : (Word.ofFn f).trit i = f i := by
  match i, h with
  | 0, _ | 1, _ | 2, _ | 3, _ | 4, _ | 5, _ | 6, _ | 7, _ | 8, _ => rfl

/-- One digit of a balanced numeral: n is three times the quotient plus the remainder. -/
theorem balQuot_spec (n : Int) : n = 3 * balQuot n + (balRem n).val := by
  unfold balQuot balRem
  split
  · simp only [Trit.val]; omega
  · split
    · simp only [Trit.val]; omega
    · simp only [Trit.val]; omega

theorem lowTrits_length (k : Nat) (n : Int) : (lowTrits k n).length = k := by
  induction k generalizing n with
  | zero => rfl
  | succ k ih => simp [lowTrits, ih]

theorem digitsToInt_snoc (ds : List Trit) (t : Trit) :
    digitsToInt (ds ++ [t]) = 3 * digitsToInt ds + t.val := by
  simp [digitsToInt]

/-- The low k trits of n are n less a multiple of 3^k. -/
theorem digitsToInt_lowTrits (k : Nat) (n : Int) : ∃ c : Int, n = c * 3 ^ k + digitsToInt (lowTrits k n) := by
  induction k generalizing n with
  | zero => exact ⟨n, by simp [lowTrits, digitsToInt]⟩
  | succ k ih =>
    obtain ⟨c, hc⟩ := ih (balQuot n)
    refine ⟨c, ?_⟩
    rw [lowTrits, digitsToInt_snoc, pow_succ]
    have := balQuot_spec n
    linarith

theorem pow3_odd (k : Nat) : (3 : Int) ^ k = 2 * maxOfWidth k + 1 := by
  have h : ((3 : Int) ^ k) % 2 = 1 := by
    induction k with
    | zero => rfl
    | succ k ih => rw [pow_succ]; omega
  unfold maxOfWidth
  omega

theorem maxOfWidth_succ (k : Nat) : maxOfWidth (k + 1) = 3 * maxOfWidth k + 1 := by
  have h := pow3_odd k
  have h' := pow3_odd (k + 1)
  rw [pow_succ] at h'
  omega

/-- k trits have a value of magnitude at most (3^k - 1)/2 (10_state.md R12). -/
theorem digitsToInt_range (ds : List Trit) :
    -maxOfWidth ds.length ≤ digitsToInt ds ∧ digitsToInt ds ≤ maxOfWidth ds.length := by
  induction ds using List.reverseRecOn with
  | nil => decide
  | append_singleton ds t ih =>
    rw [digitsToInt_snoc, List.length_append, List.length_singleton, maxOfWidth_succ]
    have := t.val_range
    omega

/-- A trit sequence of length 9, written out, has the value of its word. -/
theorem ext9_trits (w : Word) : ext9 w.trits = w := rfl

theorem digitsToInt_trits (w : Word) : digitsToInt w.trits = w.val := by
  simp only [digitsToInt, Word.trits, List.foldl_cons, List.foldl_nil, Word.val]
  ring

/-- Nine trits in a list are those of a word. -/
theorem trits_of_length_nine {ds : List Trit} (h : ds.length = 9) : (ext9 ds).trits = ds := by
  match ds, h with
  | [_, _, _, _, _, _, _, _, _], _ => rfl

theorem wrap_range (n : Int) : -9841 ≤ wrap n ∧ wrap n ≤ 9841 := by
  unfold wrap Config.wordMax Config.wordValues
  omega

/-- The value in range that differs from n by a multiple of 19683 is wrap(n). -/
theorem wrap_unique {n r c : Int} (h : n = c * 19683 + r) (h1 : -9841 ≤ r) (h2 : r ≤ 9841) : wrap n = r := by
  unfold wrap Config.wordMax Config.wordValues
  omega

theorem wrap_of_range {n : Int} (h1 : -9841 ≤ n) (h2 : n ≤ 9841) : wrap n = n :=
  wrap_unique (c := 0) (by omega) h1 h2

/-- The one lemma about `wordOf`: its value is wrap(n). -/
theorem val_wordOf (n : Int) : (wordOf n).val = wrap n := by
  have hlen : (lowTrits Config.tritsPerWord n).length = 9 := lowTrits_length _ n
  obtain ⟨c, hc⟩ := digitsToInt_lowTrits Config.tritsPerWord n
  have hr := digitsToInt_range (lowTrits Config.tritsPerWord n)
  rw [hlen] at hr
  have hv : (wordOf n).val = digitsToInt (lowTrits Config.tritsPerWord n) := by
    rw [wordOf, ← digitsToInt_trits, trits_of_length_nine hlen]
  rw [hv]
  have h9 : maxOfWidth 9 = 9841 := by decide
  have h3 : (3 : Int) ^ Config.tritsPerWord = 19683 := by decide
  rw [h3] at hc
  exact (wrap_unique hc (by omega) (by omega)).symm

theorem val_wordOf_of_range {n : Int} (h1 : -9841 ≤ n) (h2 : n ≤ 9841) : (wordOf n).val = n := by
  rw [val_wordOf, wrap_of_range h1 h2]

theorem wordOf_val (w : Word) : wordOf w.val = w :=
  Word.val_injective (val_wordOf_of_range w.val_range.1 w.val_range.2)

theorem intToWord_of_range {n : Int} (h1 : -9841 ≤ n) (h2 : n ≤ 9841) : intToWord n = .ok (wordOf n) :=
  if_pos (⟨h1, h2⟩ : -Config.wordMax ≤ n ∧ n ≤ Config.wordMax)

theorem intToWord_of_not_range {n : Int} (h : n < -9841 ∨ 9841 < n) : intToWord n = .error .rangeError :=
  if_neg (show ¬ (-Config.wordMax ≤ n ∧ n ≤ Config.wordMax) by unfold Config.wordMax; omega)

/-- The balanced remainder of a numeral is its last trit. -/
theorem balRem_snoc (a : Int) (t : Trit) : balRem (3 * a + t.val) = t := by
  have h := balQuot_spec (3 * a + t.val)
  have h1 := (balRem (3 * a + t.val)).val_range
  have h2 := t.val_range
  exact Trit.val_injective (by omega)

/-- The quotient of a numeral is the numeral without its last trit. -/
theorem balQuot_snoc (a : Int) (t : Trit) : balQuot (3 * a + t.val) = a := by
  have h := balQuot_spec (3 * a + t.val)
  rw [balRem_snoc] at h
  omega

theorem tritOfChar_char (t : Trit) : tritOfChar t.char = some t := by
  cases t <;> decide

theorem char_of_tritOfChar {c : Char} {t : Trit} (h : tritOfChar c = some t) : t.char = c := by
  unfold tritOfChar at h
  split_ifs at h with h1 h2 h3 <;> cases h <;> simp_all [Trit.char]

theorem sgn_val (n : Int) : (sgn n).val = Int.sign n := by
  unfold sgn
  split
  · next h => simp [Trit.val, Int.sign_eq_neg_one_of_neg h]
  · split
    · next h => subst h; rfl
    · next h1 h2 => rw [Int.sign_eq_one_of_pos (by omega)]; rfl

end Sys2Proof
end

