-- ==== Sys2Proof/Laws/Alu.lean ====
section
/-! SUPPORT. One lemma per ALU function: its value, or its trit at each index. -/

namespace Sys2Proof.Machine.Alu

theorem trit_perTrit (f : Trit → Trit → Trit) (a b : Word) {i : Nat} (h : i < 9) :
    (perTrit f a b).trit i = f (a.trit i) (b.trit i) :=
  Word.trit_ofFn _ h

theorem minTrit_val (p q : Trit) : (minTrit p q).val = Min.min p.val q.val := by
  cases p <;> cases q <;> decide

theorem maxTrit_val (p q : Trit) : (maxTrit p q).val = Max.max p.val q.val := by
  cases p <;> cases q <;> decide

theorem xorTrit_val (p q : Trit) :
    (xorTrit p q).val = if p.val * q.val = 0 then p.val + q.val else 0 := by
  cases p <;> cases q <;> decide

theorem consensusTrit_val (p q : Trit) : (consensusTrit p q).val = if p = q then q.val else 0 := by
  cases p <;> cases q <;> decide

theorem unionTrit_val (p q : Trit) : (unionTrit p q).val = Int.sign (p.val + q.val) :=
  sgn_val _

theorem negTrit_val (t : Trit) : (negTrit t).val = -t.val := by
  cases t <;> decide

theorem val_negate (a b : Word) : (negate a b).val = -b.val := by
  simp only [negate, Word.ofFn, Word.val, Word.trit, negTrit_val]
  ring

theorem val_add (a b : Word) : (add a b).val = wrap (a.val + b.val) := by
  have h := wrap_range (a.val + b.val)
  exact val_wordOf_of_range h.1 h.2

theorem val_multiply (a b : Word) : (multiply a b).val = wrap (a.val * b.val) := by
  have h := wrap_range (a.val * b.val)
  exact val_wordOf_of_range h.1 h.2

/-- The carry word completes the sum: 41_alu_functions.md R124. -/
theorem val_addWithCarry (a b : Word) :
    (addWithCarry a b).val
      = if 9841 < a.val + b.val then 1 else if a.val + b.val < -9841 then -1 else 0 := by
  have ha := a.val_range
  have hb := b.val_range
  have h : (a.val + b.val - wrap (a.val + b.val)) / Config.wordValues
      = if 9841 < a.val + b.val then 1 else if a.val + b.val < -9841 then -1 else 0 := by
    unfold wrap Config.wordMax Config.wordValues
    split
    · omega
    · split <;> omega
  rw [addWithCarry, h]
  split
  · decide
  · split <;> decide

/-- The spec's quotient is Lean's quotient truncated toward zero. -/
theorem intDiv_eq_tdiv (n d : Int) : intDiv n d = Int.tdiv n d := by
  unfold intDiv
  rw [sgn_val, sgn_val, Int.natCast_div]
  rcases lt_trichotomy n 0 with hn | hn | hn <;> rcases lt_trichotomy d 0 with hd | hd | hd
  · obtain ⟨a, rfl⟩ : ∃ a : Nat, n = -a := ⟨n.natAbs, by omega⟩
    obtain ⟨b, rfl⟩ : ∃ b : Nat, d = -b := ⟨d.natAbs, by omega⟩
    rw [Int.sign_eq_neg_one_of_neg hn, Int.sign_eq_neg_one_of_neg hd, Int.natAbs_neg, Int.natAbs_neg,
      Int.natAbs_natCast, Int.natAbs_natCast, Int.neg_tdiv, Int.tdiv_neg,
      Int.tdiv_eq_ediv_of_nonneg (Int.natCast_nonneg a)]
    ring
  · subst hd; simp
  · obtain ⟨a, rfl⟩ : ∃ a : Nat, n = -a := ⟨n.natAbs, by omega⟩
    obtain ⟨b, rfl⟩ : ∃ b : Nat, d = b := ⟨d.natAbs, by omega⟩
    rw [Int.sign_eq_neg_one_of_neg hn, Int.sign_eq_one_of_pos hd, Int.natAbs_neg, Int.natAbs_natCast,
      Int.natAbs_natCast, Int.neg_tdiv, Int.tdiv_eq_ediv_of_nonneg (Int.natCast_nonneg a)]
    ring
  · subst hn; simp
  · subst hn; simp
  · subst hn; simp
  · obtain ⟨a, rfl⟩ : ∃ a : Nat, n = a := ⟨n.natAbs, by omega⟩
    obtain ⟨b, rfl⟩ : ∃ b : Nat, d = -b := ⟨d.natAbs, by omega⟩
    rw [Int.sign_eq_one_of_pos hn, Int.sign_eq_neg_one_of_neg hd, Int.natAbs_neg, Int.natAbs_natCast,
      Int.natAbs_natCast, Int.tdiv_neg, Int.tdiv_eq_ediv_of_nonneg (Int.natCast_nonneg a)]
    ring
  · subst hd; simp
  · obtain ⟨a, rfl⟩ : ∃ a : Nat, n = a := ⟨n.natAbs, by omega⟩
    obtain ⟨b, rfl⟩ : ∃ b : Nat, d = b := ⟨d.natAbs, by omega⟩
    rw [Int.sign_eq_one_of_pos hn, Int.sign_eq_one_of_pos hd, Int.natAbs_natCast, Int.natAbs_natCast,
      Int.tdiv_eq_ediv_of_nonneg (Int.natCast_nonneg a)]
    ring

theorem intRem_eq_tmod (n d : Int) : intRem n d = Int.tmod n d := by
  rw [intRem, intDiv_eq_tdiv, Int.tmod_def, mul_comm]

theorem natAbs_tdiv_le (n d : Int) : (Int.tdiv n d).natAbs ≤ n.natAbs := by
  rw [Int.natAbs_tdiv]
  exact Nat.div_le_self _ _

/-- DIV: the truncated quotient, 0 on a zero divisor. -/
theorem val_divide (a b : Word) :
    (divide a b).val = if b.val = 0 then 0 else Int.tdiv a.val b.val := by
  unfold divide
  split
  · decide
  · have h := natAbs_tdiv_le a.val b.val
    have ha := a.val_range
    rw [intDiv_eq_tdiv]
    exact val_wordOf_of_range (by omega) (by omega)

/-- MOD: the truncated remainder, the dividend on a zero divisor. -/
theorem val_modulo (a b : Word) :
    (modulo a b).val = if b.val = 0 then a.val else Int.tmod a.val b.val := by
  unfold modulo
  split
  · rfl
  · have h : (Int.tmod a.val b.val).natAbs ≤ a.val.natAbs := by
      rw [Int.natAbs_tmod]
      exact Nat.mod_le _ _
    have ha := a.val_range
    rw [intRem_eq_tmod]
    exact val_wordOf_of_range (by omega) (by omega)

/-- RSH: the trit at index i comes from index i + n modulo 9. -/
theorem trit_rotateShift (a b : Word) {i : Nat} (h : i < 9) :
    (rotateShift a b).trit i = a.trit ((i + b.val) % 9).toNat := by
  have e : (i + (b.val % 9).toNat) % 9 = (((i : Int) + b.val) % 9).toNat := by omega
  rw [rotateShift, Word.trit_ofFn _ h, e]

/-- USH: the trit at index i comes from index i + n, or is zero. -/
theorem trit_unsignedShift (a b : Word) {i : Nat} (h : i < 9) :
    (unsignedShift a b).trit i
      = if 0 ≤ i + b.val ∧ i + b.val ≤ 8 then a.trit (i + b.val).toNat else .zero := by
  rw [unsignedShift, Word.trit_ofFn _ h, tritAt]

/-- One full adder keeps the sum: 41_alu_functions.md R120. -/
theorem fullAdder_spec (p q c : Trit) :
    p.val + q.val + c.val = (fullAdder p q c).2.val * 3 + (fullAdder p q c).1.val := by
  cases p <;> cases q <;> cases c <;> decide

end Sys2Proof.Machine.Alu
end

