-- ==== Sys2Proof/Laws/PerInstr.lean ====
section
/-! SUPPORT. Two families of facts about an instruction as syntax, one lemma per constructor of `Instr`: its record has a
legal opcode, x and z (so that only a short immediate can make it ill-formed), and its fields make the
instruction again. -/

namespace Sys2Proof

theorem Opcode.ofCode_code (o : Opcode) : Opcode.ofCode o.code = some o := by
  cases o <;> decide

theorem Mode.ofCode_code (m : Mode) : Mode.ofCode m.code = some m := by
  cases m <;> decide

theorem Reg.ofSelector_selector (r : Reg) : Reg.ofSelector r.selector = r := by
  cases r <;> decide

theorem Reg.selector_range (r : Reg) : inField2 r.selector := by
  cases r <;> decide

theorem inField2_zero : inField2 0 := by
  decide

/-- The second word of a record, the zero word where there is none. -/
def Record.secondWord (r : Record) : Word :=
  match r.z with
  | some (.word z) => z
  | _ => Word.zero

namespace Laws

/-- The record of `i` fails no check of `encode` but, perhaps, the one on y. -/
def RecordIsLegal.Statement (i : Instr) : Prop :=
  (Opcode.ofCode i.toRecord.opcode).isSome = true ∧ inField2 i.toRecord.x
    ∧ zMatches i.toRecord.mode i.toRecord.z = true

/-- The instruction of the fields of `i` is `i`. -/
def FieldsMakeTheInstruction.Statement (i : Instr) : Prop :=
  ∃ o, Opcode.ofCode i.toRecord.opcode = some o
    ∧ Instr.ofFields o i.toRecord.mode i.toRecord.x i.toRecord.y i.toRecord.secondWord = i

theorem RecordIsLegal.addRR (x : Reg) (y : Reg) : RecordIsLegal.Statement (.addRR x y) :=
  ⟨rfl, Reg.selector_range x, rfl⟩
theorem FieldsMakeTheInstruction.addRR (x : Reg) (y : Reg) : FieldsMakeTheInstruction.Statement (.addRR x y) :=
  ⟨.add, rfl, by
    simp only [Instr.toRecord, Instr.ofFields, Reg.ofSelector_selector]⟩

theorem RecordIsLegal.addSI (x : Reg) (imm : Int) : RecordIsLegal.Statement (.addSI x imm) :=
  ⟨rfl, Reg.selector_range x, rfl⟩
theorem FieldsMakeTheInstruction.addSI (x : Reg) (imm : Int) : FieldsMakeTheInstruction.Statement (.addSI x imm) :=
  ⟨.add, rfl, by
    simp only [Instr.toRecord, Instr.ofFields, Reg.ofSelector_selector]⟩

theorem RecordIsLegal.addWI (x : Reg) (z : Word) : RecordIsLegal.Statement (.addWI x z) :=
  ⟨rfl, Reg.selector_range x, rfl⟩
theorem FieldsMakeTheInstruction.addWI (x : Reg) (z : Word) : FieldsMakeTheInstruction.Statement (.addWI x z) :=
  ⟨.add, rfl, by
    simp only [Instr.toRecord, Instr.ofFields, Record.secondWord, Reg.ofSelector_selector]⟩

theorem RecordIsLegal.addcRR (x : Reg) (y : Reg) : RecordIsLegal.Statement (.addcRR x y) :=
  ⟨rfl, Reg.selector_range x, rfl⟩
theorem FieldsMakeTheInstruction.addcRR (x : Reg) (y : Reg) : FieldsMakeTheInstruction.Statement (.addcRR x y) :=
  ⟨.addc, rfl, by
    simp only [Instr.toRecord, Instr.ofFields, Reg.ofSelector_selector]⟩

theorem RecordIsLegal.addcSI (x : Reg) (imm : Int) : RecordIsLegal.Statement (.addcSI x imm) :=
  ⟨rfl, Reg.selector_range x, rfl⟩
theorem FieldsMakeTheInstruction.addcSI (x : Reg) (imm : Int) : FieldsMakeTheInstruction.Statement (.addcSI x imm) :=
  ⟨.addc, rfl, by
    simp only [Instr.toRecord, Instr.ofFields, Reg.ofSelector_selector]⟩

theorem RecordIsLegal.addcWI (x : Reg) (z : Word) : RecordIsLegal.Statement (.addcWI x z) :=
  ⟨rfl, Reg.selector_range x, rfl⟩
theorem FieldsMakeTheInstruction.addcWI (x : Reg) (z : Word) : FieldsMakeTheInstruction.Statement (.addcWI x z) :=
  ⟨.addc, rfl, by
    simp only [Instr.toRecord, Instr.ofFields, Record.secondWord, Reg.ofSelector_selector]⟩

theorem RecordIsLegal.mulRR (x : Reg) (y : Reg) : RecordIsLegal.Statement (.mulRR x y) :=
  ⟨rfl, Reg.selector_range x, rfl⟩
theorem FieldsMakeTheInstruction.mulRR (x : Reg) (y : Reg) : FieldsMakeTheInstruction.Statement (.mulRR x y) :=
  ⟨.mul, rfl, by
    simp only [Instr.toRecord, Instr.ofFields, Reg.ofSelector_selector]⟩

theorem RecordIsLegal.mulSI (x : Reg) (imm : Int) : RecordIsLegal.Statement (.mulSI x imm) :=
  ⟨rfl, Reg.selector_range x, rfl⟩
theorem FieldsMakeTheInstruction.mulSI (x : Reg) (imm : Int) : FieldsMakeTheInstruction.Statement (.mulSI x imm) :=
  ⟨.mul, rfl, by
    simp only [Instr.toRecord, Instr.ofFields, Reg.ofSelector_selector]⟩

theorem RecordIsLegal.mulWI (x : Reg) (z : Word) : RecordIsLegal.Statement (.mulWI x z) :=
  ⟨rfl, Reg.selector_range x, rfl⟩
theorem FieldsMakeTheInstruction.mulWI (x : Reg) (z : Word) : FieldsMakeTheInstruction.Statement (.mulWI x z) :=
  ⟨.mul, rfl, by
    simp only [Instr.toRecord, Instr.ofFields, Record.secondWord, Reg.ofSelector_selector]⟩

theorem RecordIsLegal.divRR (x : Reg) (y : Reg) : RecordIsLegal.Statement (.divRR x y) :=
  ⟨rfl, Reg.selector_range x, rfl⟩
theorem FieldsMakeTheInstruction.divRR (x : Reg) (y : Reg) : FieldsMakeTheInstruction.Statement (.divRR x y) :=
  ⟨.div, rfl, by
    simp only [Instr.toRecord, Instr.ofFields, Reg.ofSelector_selector]⟩

theorem RecordIsLegal.divSI (x : Reg) (imm : Int) : RecordIsLegal.Statement (.divSI x imm) :=
  ⟨rfl, Reg.selector_range x, rfl⟩
theorem FieldsMakeTheInstruction.divSI (x : Reg) (imm : Int) : FieldsMakeTheInstruction.Statement (.divSI x imm) :=
  ⟨.div, rfl, by
    simp only [Instr.toRecord, Instr.ofFields, Reg.ofSelector_selector]⟩

theorem RecordIsLegal.divWI (x : Reg) (z : Word) : RecordIsLegal.Statement (.divWI x z) :=
  ⟨rfl, Reg.selector_range x, rfl⟩
theorem FieldsMakeTheInstruction.divWI (x : Reg) (z : Word) : FieldsMakeTheInstruction.Statement (.divWI x z) :=
  ⟨.div, rfl, by
    simp only [Instr.toRecord, Instr.ofFields, Record.secondWord, Reg.ofSelector_selector]⟩

theorem RecordIsLegal.modRR (x : Reg) (y : Reg) : RecordIsLegal.Statement (.modRR x y) :=
  ⟨rfl, Reg.selector_range x, rfl⟩
theorem FieldsMakeTheInstruction.modRR (x : Reg) (y : Reg) : FieldsMakeTheInstruction.Statement (.modRR x y) :=
  ⟨.mod, rfl, by
    simp only [Instr.toRecord, Instr.ofFields, Reg.ofSelector_selector]⟩

theorem RecordIsLegal.modSI (x : Reg) (imm : Int) : RecordIsLegal.Statement (.modSI x imm) :=
  ⟨rfl, Reg.selector_range x, rfl⟩
theorem FieldsMakeTheInstruction.modSI (x : Reg) (imm : Int) : FieldsMakeTheInstruction.Statement (.modSI x imm) :=
  ⟨.mod, rfl, by
    simp only [Instr.toRecord, Instr.ofFields, Reg.ofSelector_selector]⟩

theorem RecordIsLegal.modWI (x : Reg) (z : Word) : RecordIsLegal.Statement (.modWI x z) :=
  ⟨rfl, Reg.selector_range x, rfl⟩
theorem FieldsMakeTheInstruction.modWI (x : Reg) (z : Word) : FieldsMakeTheInstruction.Statement (.modWI x z) :=
  ⟨.mod, rfl, by
    simp only [Instr.toRecord, Instr.ofFields, Record.secondWord, Reg.ofSelector_selector]⟩

theorem RecordIsLegal.negRR (x : Reg) (y : Reg) : RecordIsLegal.Statement (.negRR x y) :=
  ⟨rfl, Reg.selector_range x, rfl⟩
theorem FieldsMakeTheInstruction.negRR (x : Reg) (y : Reg) : FieldsMakeTheInstruction.Statement (.negRR x y) :=
  ⟨.neg, rfl, by
    simp only [Instr.toRecord, Instr.ofFields, Reg.ofSelector_selector]⟩

theorem RecordIsLegal.negSI (x : Reg) (imm : Int) : RecordIsLegal.Statement (.negSI x imm) :=
  ⟨rfl, Reg.selector_range x, rfl⟩
theorem FieldsMakeTheInstruction.negSI (x : Reg) (imm : Int) : FieldsMakeTheInstruction.Statement (.negSI x imm) :=
  ⟨.neg, rfl, by
    simp only [Instr.toRecord, Instr.ofFields, Reg.ofSelector_selector]⟩

theorem RecordIsLegal.negWI (x : Reg) (z : Word) : RecordIsLegal.Statement (.negWI x z) :=
  ⟨rfl, Reg.selector_range x, rfl⟩
theorem FieldsMakeTheInstruction.negWI (x : Reg) (z : Word) : FieldsMakeTheInstruction.Statement (.negWI x z) :=
  ⟨.neg, rfl, by
    simp only [Instr.toRecord, Instr.ofFields, Record.secondWord, Reg.ofSelector_selector]⟩

theorem RecordIsLegal.minRR (x : Reg) (y : Reg) : RecordIsLegal.Statement (.minRR x y) :=
  ⟨rfl, Reg.selector_range x, rfl⟩
theorem FieldsMakeTheInstruction.minRR (x : Reg) (y : Reg) : FieldsMakeTheInstruction.Statement (.minRR x y) :=
  ⟨.min, rfl, by
    simp only [Instr.toRecord, Instr.ofFields, Reg.ofSelector_selector]⟩

theorem RecordIsLegal.minSI (x : Reg) (imm : Int) : RecordIsLegal.Statement (.minSI x imm) :=
  ⟨rfl, Reg.selector_range x, rfl⟩
theorem FieldsMakeTheInstruction.minSI (x : Reg) (imm : Int) : FieldsMakeTheInstruction.Statement (.minSI x imm) :=
  ⟨.min, rfl, by
    simp only [Instr.toRecord, Instr.ofFields, Reg.ofSelector_selector]⟩

theorem RecordIsLegal.minWI (x : Reg) (z : Word) : RecordIsLegal.Statement (.minWI x z) :=
  ⟨rfl, Reg.selector_range x, rfl⟩
theorem FieldsMakeTheInstruction.minWI (x : Reg) (z : Word) : FieldsMakeTheInstruction.Statement (.minWI x z) :=
  ⟨.min, rfl, by
    simp only [Instr.toRecord, Instr.ofFields, Record.secondWord, Reg.ofSelector_selector]⟩

theorem RecordIsLegal.maxRR (x : Reg) (y : Reg) : RecordIsLegal.Statement (.maxRR x y) :=
  ⟨rfl, Reg.selector_range x, rfl⟩
theorem FieldsMakeTheInstruction.maxRR (x : Reg) (y : Reg) : FieldsMakeTheInstruction.Statement (.maxRR x y) :=
  ⟨.max, rfl, by
    simp only [Instr.toRecord, Instr.ofFields, Reg.ofSelector_selector]⟩

theorem RecordIsLegal.maxSI (x : Reg) (imm : Int) : RecordIsLegal.Statement (.maxSI x imm) :=
  ⟨rfl, Reg.selector_range x, rfl⟩
theorem FieldsMakeTheInstruction.maxSI (x : Reg) (imm : Int) : FieldsMakeTheInstruction.Statement (.maxSI x imm) :=
  ⟨.max, rfl, by
    simp only [Instr.toRecord, Instr.ofFields, Reg.ofSelector_selector]⟩

theorem RecordIsLegal.maxWI (x : Reg) (z : Word) : RecordIsLegal.Statement (.maxWI x z) :=
  ⟨rfl, Reg.selector_range x, rfl⟩
theorem FieldsMakeTheInstruction.maxWI (x : Reg) (z : Word) : FieldsMakeTheInstruction.Statement (.maxWI x z) :=
  ⟨.max, rfl, by
    simp only [Instr.toRecord, Instr.ofFields, Record.secondWord, Reg.ofSelector_selector]⟩

theorem RecordIsLegal.conRR (x : Reg) (y : Reg) : RecordIsLegal.Statement (.conRR x y) :=
  ⟨rfl, Reg.selector_range x, rfl⟩
theorem FieldsMakeTheInstruction.conRR (x : Reg) (y : Reg) : FieldsMakeTheInstruction.Statement (.conRR x y) :=
  ⟨.con, rfl, by
    simp only [Instr.toRecord, Instr.ofFields, Reg.ofSelector_selector]⟩

theorem RecordIsLegal.conSI (x : Reg) (imm : Int) : RecordIsLegal.Statement (.conSI x imm) :=
  ⟨rfl, Reg.selector_range x, rfl⟩
theorem FieldsMakeTheInstruction.conSI (x : Reg) (imm : Int) : FieldsMakeTheInstruction.Statement (.conSI x imm) :=
  ⟨.con, rfl, by
    simp only [Instr.toRecord, Instr.ofFields, Reg.ofSelector_selector]⟩

theorem RecordIsLegal.conWI (x : Reg) (z : Word) : RecordIsLegal.Statement (.conWI x z) :=
  ⟨rfl, Reg.selector_range x, rfl⟩
theorem FieldsMakeTheInstruction.conWI (x : Reg) (z : Word) : FieldsMakeTheInstruction.Statement (.conWI x z) :=
  ⟨.con, rfl, by
    simp only [Instr.toRecord, Instr.ofFields, Record.secondWord, Reg.ofSelector_selector]⟩

theorem RecordIsLegal.anyRR (x : Reg) (y : Reg) : RecordIsLegal.Statement (.anyRR x y) :=
  ⟨rfl, Reg.selector_range x, rfl⟩
theorem FieldsMakeTheInstruction.anyRR (x : Reg) (y : Reg) : FieldsMakeTheInstruction.Statement (.anyRR x y) :=
  ⟨.any, rfl, by
    simp only [Instr.toRecord, Instr.ofFields, Reg.ofSelector_selector]⟩

theorem RecordIsLegal.anySI (x : Reg) (imm : Int) : RecordIsLegal.Statement (.anySI x imm) :=
  ⟨rfl, Reg.selector_range x, rfl⟩
theorem FieldsMakeTheInstruction.anySI (x : Reg) (imm : Int) : FieldsMakeTheInstruction.Statement (.anySI x imm) :=
  ⟨.any, rfl, by
    simp only [Instr.toRecord, Instr.ofFields, Reg.ofSelector_selector]⟩

theorem RecordIsLegal.anyWI (x : Reg) (z : Word) : RecordIsLegal.Statement (.anyWI x z) :=
  ⟨rfl, Reg.selector_range x, rfl⟩
theorem FieldsMakeTheInstruction.anyWI (x : Reg) (z : Word) : FieldsMakeTheInstruction.Statement (.anyWI x z) :=
  ⟨.any, rfl, by
    simp only [Instr.toRecord, Instr.ofFields, Record.secondWord, Reg.ofSelector_selector]⟩

theorem RecordIsLegal.rshRR (x : Reg) (y : Reg) : RecordIsLegal.Statement (.rshRR x y) :=
  ⟨rfl, Reg.selector_range x, rfl⟩
theorem FieldsMakeTheInstruction.rshRR (x : Reg) (y : Reg) : FieldsMakeTheInstruction.Statement (.rshRR x y) :=
  ⟨.rsh, rfl, by
    simp only [Instr.toRecord, Instr.ofFields, Reg.ofSelector_selector]⟩

theorem RecordIsLegal.rshSI (x : Reg) (imm : Int) : RecordIsLegal.Statement (.rshSI x imm) :=
  ⟨rfl, Reg.selector_range x, rfl⟩
theorem FieldsMakeTheInstruction.rshSI (x : Reg) (imm : Int) : FieldsMakeTheInstruction.Statement (.rshSI x imm) :=
  ⟨.rsh, rfl, by
    simp only [Instr.toRecord, Instr.ofFields, Reg.ofSelector_selector]⟩

theorem RecordIsLegal.rshWI (x : Reg) (z : Word) : RecordIsLegal.Statement (.rshWI x z) :=
  ⟨rfl, Reg.selector_range x, rfl⟩
theorem FieldsMakeTheInstruction.rshWI (x : Reg) (z : Word) : FieldsMakeTheInstruction.Statement (.rshWI x z) :=
  ⟨.rsh, rfl, by
    simp only [Instr.toRecord, Instr.ofFields, Record.secondWord, Reg.ofSelector_selector]⟩

theorem RecordIsLegal.ushRR (x : Reg) (y : Reg) : RecordIsLegal.Statement (.ushRR x y) :=
  ⟨rfl, Reg.selector_range x, rfl⟩
theorem FieldsMakeTheInstruction.ushRR (x : Reg) (y : Reg) : FieldsMakeTheInstruction.Statement (.ushRR x y) :=
  ⟨.ush, rfl, by
    simp only [Instr.toRecord, Instr.ofFields, Reg.ofSelector_selector]⟩

theorem RecordIsLegal.ushSI (x : Reg) (imm : Int) : RecordIsLegal.Statement (.ushSI x imm) :=
  ⟨rfl, Reg.selector_range x, rfl⟩
theorem FieldsMakeTheInstruction.ushSI (x : Reg) (imm : Int) : FieldsMakeTheInstruction.Statement (.ushSI x imm) :=
  ⟨.ush, rfl, by
    simp only [Instr.toRecord, Instr.ofFields, Reg.ofSelector_selector]⟩

theorem RecordIsLegal.ushWI (x : Reg) (z : Word) : RecordIsLegal.Statement (.ushWI x z) :=
  ⟨rfl, Reg.selector_range x, rfl⟩
theorem FieldsMakeTheInstruction.ushWI (x : Reg) (z : Word) : FieldsMakeTheInstruction.Statement (.ushWI x z) :=
  ⟨.ush, rfl, by
    simp only [Instr.toRecord, Instr.ofFields, Record.secondWord, Reg.ofSelector_selector]⟩

theorem RecordIsLegal.nopRR : RecordIsLegal.Statement .nopRR :=
  ⟨rfl, inField2_zero, rfl⟩
theorem FieldsMakeTheInstruction.nopRR : FieldsMakeTheInstruction.Statement .nopRR :=
  ⟨.nop, rfl, rfl⟩

theorem RecordIsLegal.nopSI : RecordIsLegal.Statement .nopSI :=
  ⟨rfl, inField2_zero, rfl⟩
theorem FieldsMakeTheInstruction.nopSI : FieldsMakeTheInstruction.Statement .nopSI :=
  ⟨.nop, rfl, rfl⟩

theorem RecordIsLegal.nopWI (z : Word) : RecordIsLegal.Statement (.nopWI z) :=
  ⟨rfl, inField2_zero, rfl⟩
theorem FieldsMakeTheInstruction.nopWI (z : Word) : FieldsMakeTheInstruction.Statement (.nopWI z) :=
  ⟨.nop, rfl, rfl⟩

theorem RecordIsLegal.movRR (x : Reg) (y : Reg) : RecordIsLegal.Statement (.movRR x y) :=
  ⟨rfl, Reg.selector_range x, rfl⟩
theorem FieldsMakeTheInstruction.movRR (x : Reg) (y : Reg) : FieldsMakeTheInstruction.Statement (.movRR x y) :=
  ⟨.mov, rfl, by
    simp only [Instr.toRecord, Instr.ofFields, Reg.ofSelector_selector]⟩

theorem RecordIsLegal.movSI (x : Reg) (imm : Int) : RecordIsLegal.Statement (.movSI x imm) :=
  ⟨rfl, Reg.selector_range x, rfl⟩
theorem FieldsMakeTheInstruction.movSI (x : Reg) (imm : Int) : FieldsMakeTheInstruction.Statement (.movSI x imm) :=
  ⟨.mov, rfl, by
    simp only [Instr.toRecord, Instr.ofFields, Reg.ofSelector_selector]⟩

theorem RecordIsLegal.movWI (x : Reg) (z : Word) : RecordIsLegal.Statement (.movWI x z) :=
  ⟨rfl, Reg.selector_range x, rfl⟩
theorem FieldsMakeTheInstruction.movWI (x : Reg) (z : Word) : FieldsMakeTheInstruction.Statement (.movWI x z) :=
  ⟨.mov, rfl, by
    simp only [Instr.toRecord, Instr.ofFields, Record.secondWord, Reg.ofSelector_selector]⟩

theorem RecordIsLegal.cmpRR (x : Reg) (y : Reg) : RecordIsLegal.Statement (.cmpRR x y) :=
  ⟨rfl, Reg.selector_range x, rfl⟩
theorem FieldsMakeTheInstruction.cmpRR (x : Reg) (y : Reg) : FieldsMakeTheInstruction.Statement (.cmpRR x y) :=
  ⟨.cmp, rfl, by
    simp only [Instr.toRecord, Instr.ofFields, Reg.ofSelector_selector]⟩

theorem RecordIsLegal.cmpSI (x : Reg) (imm : Int) : RecordIsLegal.Statement (.cmpSI x imm) :=
  ⟨rfl, Reg.selector_range x, rfl⟩
theorem FieldsMakeTheInstruction.cmpSI (x : Reg) (imm : Int) : FieldsMakeTheInstruction.Statement (.cmpSI x imm) :=
  ⟨.cmp, rfl, by
    simp only [Instr.toRecord, Instr.ofFields, Reg.ofSelector_selector]⟩

theorem RecordIsLegal.cmpWI (x : Reg) (z : Word) : RecordIsLegal.Statement (.cmpWI x z) :=
  ⟨rfl, Reg.selector_range x, rfl⟩
theorem FieldsMakeTheInstruction.cmpWI (x : Reg) (z : Word) : FieldsMakeTheInstruction.Statement (.cmpWI x z) :=
  ⟨.cmp, rfl, by
    simp only [Instr.toRecord, Instr.ofFields, Record.secondWord, Reg.ofSelector_selector]⟩

theorem RecordIsLegal.jmpRR (y : Reg) : RecordIsLegal.Statement (.jmpRR y) :=
  ⟨rfl, inField2_zero, rfl⟩
theorem FieldsMakeTheInstruction.jmpRR (y : Reg) : FieldsMakeTheInstruction.Statement (.jmpRR y) :=
  ⟨.jmp, rfl, by
    simp only [Instr.toRecord, Instr.ofFields, Reg.ofSelector_selector]⟩

theorem RecordIsLegal.jmpSI (imm : Int) : RecordIsLegal.Statement (.jmpSI imm) :=
  ⟨rfl, inField2_zero, rfl⟩
theorem FieldsMakeTheInstruction.jmpSI (imm : Int) : FieldsMakeTheInstruction.Statement (.jmpSI imm) :=
  ⟨.jmp, rfl, rfl⟩

theorem RecordIsLegal.jmpWI (z : Word) : RecordIsLegal.Statement (.jmpWI z) :=
  ⟨rfl, inField2_zero, rfl⟩
theorem FieldsMakeTheInstruction.jmpWI (z : Word) : FieldsMakeTheInstruction.Statement (.jmpWI z) :=
  ⟨.jmp, rfl, rfl⟩

theorem RecordIsLegal.beqRR (y : Reg) : RecordIsLegal.Statement (.beqRR y) :=
  ⟨rfl, inField2_zero, rfl⟩
theorem FieldsMakeTheInstruction.beqRR (y : Reg) : FieldsMakeTheInstruction.Statement (.beqRR y) :=
  ⟨.beq, rfl, by
    simp only [Instr.toRecord, Instr.ofFields, Reg.ofSelector_selector]⟩

theorem RecordIsLegal.beqSI (imm : Int) : RecordIsLegal.Statement (.beqSI imm) :=
  ⟨rfl, inField2_zero, rfl⟩
theorem FieldsMakeTheInstruction.beqSI (imm : Int) : FieldsMakeTheInstruction.Statement (.beqSI imm) :=
  ⟨.beq, rfl, rfl⟩

theorem RecordIsLegal.beqWI (z : Word) : RecordIsLegal.Statement (.beqWI z) :=
  ⟨rfl, inField2_zero, rfl⟩
theorem FieldsMakeTheInstruction.beqWI (z : Word) : FieldsMakeTheInstruction.Statement (.beqWI z) :=
  ⟨.beq, rfl, rfl⟩

theorem RecordIsLegal.bgtRR (y : Reg) : RecordIsLegal.Statement (.bgtRR y) :=
  ⟨rfl, inField2_zero, rfl⟩
theorem FieldsMakeTheInstruction.bgtRR (y : Reg) : FieldsMakeTheInstruction.Statement (.bgtRR y) :=
  ⟨.bgt, rfl, by
    simp only [Instr.toRecord, Instr.ofFields, Reg.ofSelector_selector]⟩

theorem RecordIsLegal.bgtSI (imm : Int) : RecordIsLegal.Statement (.bgtSI imm) :=
  ⟨rfl, inField2_zero, rfl⟩
theorem FieldsMakeTheInstruction.bgtSI (imm : Int) : FieldsMakeTheInstruction.Statement (.bgtSI imm) :=
  ⟨.bgt, rfl, rfl⟩

theorem RecordIsLegal.bgtWI (z : Word) : RecordIsLegal.Statement (.bgtWI z) :=
  ⟨rfl, inField2_zero, rfl⟩
theorem FieldsMakeTheInstruction.bgtWI (z : Word) : FieldsMakeTheInstruction.Statement (.bgtWI z) :=
  ⟨.bgt, rfl, rfl⟩

theorem RecordIsLegal.bltRR (y : Reg) : RecordIsLegal.Statement (.bltRR y) :=
  ⟨rfl, inField2_zero, rfl⟩
theorem FieldsMakeTheInstruction.bltRR (y : Reg) : FieldsMakeTheInstruction.Statement (.bltRR y) :=
  ⟨.blt, rfl, by
    simp only [Instr.toRecord, Instr.ofFields, Reg.ofSelector_selector]⟩

theorem RecordIsLegal.bltSI (imm : Int) : RecordIsLegal.Statement (.bltSI imm) :=
  ⟨rfl, inField2_zero, rfl⟩
theorem FieldsMakeTheInstruction.bltSI (imm : Int) : FieldsMakeTheInstruction.Statement (.bltSI imm) :=
  ⟨.blt, rfl, rfl⟩

theorem RecordIsLegal.bltWI (z : Word) : RecordIsLegal.Statement (.bltWI z) :=
  ⟨rfl, inField2_zero, rfl⟩
theorem FieldsMakeTheInstruction.bltWI (z : Word) : FieldsMakeTheInstruction.Statement (.bltWI z) :=
  ⟨.blt, rfl, rfl⟩

theorem RecordIsLegal.jalRR (y : Reg) : RecordIsLegal.Statement (.jalRR y) :=
  ⟨rfl, inField2_zero, rfl⟩
theorem FieldsMakeTheInstruction.jalRR (y : Reg) : FieldsMakeTheInstruction.Statement (.jalRR y) :=
  ⟨.jal, rfl, by
    simp only [Instr.toRecord, Instr.ofFields, Reg.ofSelector_selector]⟩

theorem RecordIsLegal.jalSI (imm : Int) : RecordIsLegal.Statement (.jalSI imm) :=
  ⟨rfl, inField2_zero, rfl⟩
theorem FieldsMakeTheInstruction.jalSI (imm : Int) : FieldsMakeTheInstruction.Statement (.jalSI imm) :=
  ⟨.jal, rfl, rfl⟩

theorem RecordIsLegal.jalWI (z : Word) : RecordIsLegal.Statement (.jalWI z) :=
  ⟨rfl, inField2_zero, rfl⟩
theorem FieldsMakeTheInstruction.jalWI (z : Word) : FieldsMakeTheInstruction.Statement (.jalWI z) :=
  ⟨.jal, rfl, rfl⟩

theorem RecordIsLegal.lodRR (x : Reg) (y : Reg) : RecordIsLegal.Statement (.lodRR x y) :=
  ⟨rfl, Reg.selector_range x, rfl⟩
theorem FieldsMakeTheInstruction.lodRR (x : Reg) (y : Reg) : FieldsMakeTheInstruction.Statement (.lodRR x y) :=
  ⟨.lod, rfl, by
    simp only [Instr.toRecord, Instr.ofFields, Reg.ofSelector_selector]⟩

theorem RecordIsLegal.lodSI (x : Reg) (imm : Int) : RecordIsLegal.Statement (.lodSI x imm) :=
  ⟨rfl, Reg.selector_range x, rfl⟩
theorem FieldsMakeTheInstruction.lodSI (x : Reg) (imm : Int) : FieldsMakeTheInstruction.Statement (.lodSI x imm) :=
  ⟨.lod, rfl, by
    simp only [Instr.toRecord, Instr.ofFields, Reg.ofSelector_selector]⟩

theorem RecordIsLegal.lodWI (x : Reg) (z : Word) : RecordIsLegal.Statement (.lodWI x z) :=
  ⟨rfl, Reg.selector_range x, rfl⟩
theorem FieldsMakeTheInstruction.lodWI (x : Reg) (z : Word) : FieldsMakeTheInstruction.Statement (.lodWI x z) :=
  ⟨.lod, rfl, by
    simp only [Instr.toRecord, Instr.ofFields, Record.secondWord, Reg.ofSelector_selector]⟩

theorem RecordIsLegal.xorRR (x : Reg) (y : Reg) : RecordIsLegal.Statement (.xorRR x y) :=
  ⟨rfl, Reg.selector_range x, rfl⟩
theorem FieldsMakeTheInstruction.xorRR (x : Reg) (y : Reg) : FieldsMakeTheInstruction.Statement (.xorRR x y) :=
  ⟨.xor, rfl, by
    simp only [Instr.toRecord, Instr.ofFields, Reg.ofSelector_selector]⟩

theorem RecordIsLegal.xorSI (x : Reg) (imm : Int) : RecordIsLegal.Statement (.xorSI x imm) :=
  ⟨rfl, Reg.selector_range x, rfl⟩
theorem FieldsMakeTheInstruction.xorSI (x : Reg) (imm : Int) : FieldsMakeTheInstruction.Statement (.xorSI x imm) :=
  ⟨.xor, rfl, by
    simp only [Instr.toRecord, Instr.ofFields, Reg.ofSelector_selector]⟩

theorem RecordIsLegal.xorWI (x : Reg) (z : Word) : RecordIsLegal.Statement (.xorWI x z) :=
  ⟨rfl, Reg.selector_range x, rfl⟩
theorem FieldsMakeTheInstruction.xorWI (x : Reg) (z : Word) : FieldsMakeTheInstruction.Statement (.xorWI x z) :=
  ⟨.xor, rfl, by
    simp only [Instr.toRecord, Instr.ofFields, Record.secondWord, Reg.ofSelector_selector]⟩

end Laws

end Sys2Proof
end

