-- ==== Sys2Proof/Laws/Decode.lean ====
section
/-! SUPPORT. The fields of a word and of a packed word, and what decode1 answers. -/

namespace Sys2Proof

theorem opcodeField_eq (w : Word) : opcodeField w = 9 * w.t0.val + 3 * w.t1.val + w.t2.val := by
  simp only [opcodeField, fieldValue, Word.slice, Word.trits, digitsToInt, List.drop, List.take,
    List.foldl_cons, List.foldl_nil]
  ring

theorem modeField_eq (w : Word) : modeField w = 3 * w.t3.val + w.t4.val := by
  simp only [modeField, fieldValue, Word.slice, Word.trits, digitsToInt, List.drop, List.take,
    List.foldl_cons, List.foldl_nil]
  ring

theorem xField_eq (w : Word) : xField w = 3 * w.t5.val + w.t6.val := by
  simp only [xField, fieldValue, Word.slice, Word.trits, digitsToInt, List.drop, List.take,
    List.foldl_cons, List.foldl_nil]
  ring

theorem yField_eq (w : Word) : yField w = 3 * w.t7.val + w.t8.val := by
  simp only [yField, fieldValue, Word.slice, Word.trits, digitsToInt, List.drop, List.take,
    List.foldl_cons, List.foldl_nil]
  ring

theorem opcodeField_range (w : Word) : -13 ≤ opcodeField w ∧ opcodeField w ≤ 13 := by
  have h0 := w.t0.val_range; have h1 := w.t1.val_range; have h2 := w.t2.val_range
  rw [opcodeField_eq]; omega

theorem modeField_range (w : Word) : -4 ≤ modeField w ∧ modeField w ≤ 4 := by
  have h0 := w.t3.val_range; have h1 := w.t4.val_range
  rw [modeField_eq]; omega

theorem xField_range (w : Word) : inField2 (xField w) := by
  have h0 := w.t5.val_range; have h1 := w.t6.val_range
  simp only [inField2, Config.shortImmMax, xField_eq]; omega

theorem yField_range (w : Word) : inField2 (yField w) := by
  have h0 := w.t7.val_range; have h1 := w.t8.val_range
  simp only [inField2, Config.shortImmMax, yField_eq]; omega

/-- The digits of a number that fits in k trits have its value. -/
theorem digitsToInt_lowTrits_of_range {k : Nat} {n : Int} (h1 : -maxOfWidth k ≤ n) (h2 : n ≤ maxOfWidth k) :
    digitsToInt (lowTrits k n) = n := by
  obtain ⟨c, hc⟩ := digitsToInt_lowTrits k n
  have hr := digitsToInt_range (lowTrits k n)
  rw [lowTrits_length] at hr
  rw [pow3_odd] at hc
  have hm : 0 ≤ maxOfWidth k := by omega
  rcases lt_trichotomy c 0 with h | h | h
  · have : c * (2 * maxOfWidth k + 1) ≤ -1 * (2 * maxOfWidth k + 1) :=
      mul_le_mul_of_nonneg_right (by omega) (by omega)
    omega
  · subst h; omega
  · have : 1 * (2 * maxOfWidth k + 1) ≤ c * (2 * maxOfWidth k + 1) :=
      mul_le_mul_of_nonneg_right (by omega) (by omega)
    omega

/-- The slices of a word made of four fields are the fields. -/
theorem slices_of_fields {a b c d : List Trit} (ha : a.length = 3) (hb : b.length = 2) (hc : c.length = 2)
    (hd : d.length = 2) :
    (ext9 (a ++ b ++ c ++ d)).slice 0 2 = a ∧ (ext9 (a ++ b ++ c ++ d)).slice 3 4 = b
      ∧ (ext9 (a ++ b ++ c ++ d)).slice 5 6 = c ∧ (ext9 (a ++ b ++ c ++ d)).slice 7 8 = d := by
  match a, ha with
  | [_, _, _], _ =>
    match b, hb with
    | [_, _], _ =>
      match c, hc with
      | [_, _], _ =>
        match d, hd with
        | [_, _], _ => exact ⟨rfl, rfl, rfl, rfl⟩

/-- The one lemma about `packFields`: each field of the packed word is the number packed. -/
theorem packFields_fields {op m x y : Int} (hop : -13 ≤ op ∧ op ≤ 13) (hm : inField2 m) (hx : inField2 x)
    (hy : inField2 y) :
    opcodeField (packFields op m x y) = op ∧ modeField (packFields op m x y) = m
      ∧ xField (packFields op m x y) = x ∧ yField (packFields op m x y) = y := by
  obtain ⟨h1, h2, h3, h4⟩ := slices_of_fields (lowTrits_length 3 op) (lowTrits_length 2 m)
    (lowTrits_length 2 x) (lowTrits_length 2 y)
  have e3 : maxOfWidth 3 = 13 := by decide
  have e2 : maxOfWidth 2 = 4 := by decide
  simp only [inField2, Config.shortImmMax] at hm hx hy
  simp only [opcodeField, modeField, xField, yField, fieldValue, packFields, h1, h2, h3, h4]
  exact ⟨digitsToInt_lowTrits_of_range (by omega) (by omega), digitsToInt_lowTrits_of_range (by omega) (by omega),
    digitsToInt_lowTrits_of_range (by omega) (by omega), digitsToInt_lowTrits_of_range (by omega) (by omega)⟩

theorem Opcode.code_of_ofCode {n : Int} {o : Opcode} (h : Opcode.ofCode n = some o) : o.code = n := by
  simpa using List.find?_some h

theorem Opcode.code_range (o : Opcode) : -13 ≤ o.code ∧ o.code ≤ 13 := by
  cases o <;> decide

/-- The opcode values that spell no instruction (30_encoding.md R55). -/
theorem Opcode.ofCode_eq_none_iff {n : Int} (h : -13 ≤ n ∧ n ≤ 13) :
    Opcode.ofCode n = none ↔ n = -12 ∨ 10 ≤ n := by
  obtain ⟨h1, h2⟩ := h
  interval_cases n <;> decide

theorem Mode.code_of_ofCode {n : Int} {m : Mode} (h : Mode.ofCode n = some m) : m.code = n := by
  simp only [Mode.ofCode] at h
  split_ifs at h with h0 h1 h2 <;> cases h <;> simp_all [Mode.code]

theorem Mode.ofCode_eq_none_iff (n : Int) : Mode.ofCode n = none ↔ n < 0 ∨ 2 < n := by
  simp only [Mode.ofCode]
  split_ifs <;> simp <;> omega

theorem Mode.code_inField2 (m : Mode) : inField2 m.code := by
  cases m <;> decide

/-- The one lemma about `decode1`: it answers the fields of a word whose opcode and mode are legal, and DecodeError on any
other word. -/
theorem decode1_cases (w : Word) :
    (∃ o m, Opcode.ofCode (opcodeField w) = some o ∧ Mode.ofCode (modeField w) = some m
        ∧ decode1 w = .ok ⟨o, m, xField w, yField w⟩)
      ∨ ((Opcode.ofCode (opcodeField w) = none ∨ Mode.ofCode (modeField w) = none)
        ∧ decode1 w = .error .decodeError) := by
  unfold decode1
  cases ho : Opcode.ofCode (opcodeField w) with
  | none => exact .inr ⟨.inl rfl, rfl⟩
  | some o =>
    cases hm : Mode.ofCode (modeField w) with
    | none => exact .inr ⟨.inr rfl, rfl⟩
    | some m => exact .inl ⟨o, m, rfl, rfl, rfl⟩

theorem Laws.RecordIsLegal.all (i : Instr) : Laws.RecordIsLegal.Statement i := by
  cases i <;> first
    | exact ⟨rfl, Reg.selector_range _, rfl⟩
    | exact ⟨rfl, inField2_zero, rfl⟩

theorem Laws.FieldsMakeTheInstruction.all (i : Instr) : Laws.FieldsMakeTheInstruction.Statement i := by
  cases i <;> exact ⟨_, rfl, by simp only [Instr.ofFields, Instr.toRecord, Record.secondWord, Reg.ofSelector_selector]⟩

end Sys2Proof
end

