-- ==== Sys2Proof/Laws/State.lean ====
section
/-! SUPPORT. One lemma per field per update of the state, true by unfolding the update. -/

namespace Sys2Proof.Machine

theorem RegFile.get_put (f : RegFile) (v : Word) (r q : Reg) :
    (f.put v r).get q = if q = r then v else f.get q := by
  cases r <;> cases q <;> rfl

theorem State.reg_setReg (s : State) (r q : Reg) (v : Word) :
    (s.setReg r v).reg q = if q = r then v else s.reg q :=
  RegFile.get_put s.regs v r q

@[simp] theorem State.reg_setReg_same (s : State) (r : Reg) (v : Word) : (s.setReg r v).reg r = v := by
  simp [State.reg_setReg]

@[simp] theorem State.reg_setReg_other (s : State) (r q : Reg) (v : Word) (h : q ≠ r) :
    (s.setReg r v).reg q = s.reg q := by
  simp [State.reg_setReg, h]

@[simp] theorem State.pc_setReg (s : State) (r : Reg) (v : Word) : (s.setReg r v).pc = s.pc := rfl
@[simp] theorem State.cf_setReg (s : State) (r : Reg) (v : Word) : (s.setReg r v).cf = s.cf := rfl
@[simp] theorem State.latch_setReg (s : State) (r : Reg) (v : Word) : (s.setReg r v).latch = s.latch := rfl
@[simp] theorem State.mem_setReg (s : State) (r : Reg) (v : Word) : (s.setReg r v).mem = s.mem := rfl

@[simp] theorem State.reg_setPc (s : State) (v : Word) (r : Reg) : (s.setPc v).reg r = s.reg r := rfl
@[simp] theorem State.regs_setPc (s : State) (v : Word) : (s.setPc v).regs = s.regs := rfl
@[simp] theorem State.pc_setPc (s : State) (v : Word) : (s.setPc v).pc = v := rfl
@[simp] theorem State.cf_setPc (s : State) (v : Word) : (s.setPc v).cf = s.cf := rfl
@[simp] theorem State.latch_setPc (s : State) (v : Word) : (s.setPc v).latch = s.latch := rfl
@[simp] theorem State.mem_setPc (s : State) (v : Word) : (s.setPc v).mem = s.mem := rfl

@[simp] theorem State.reg_setCf (s : State) (c : Trit) (r : Reg) : (s.setCf c).reg r = s.reg r := rfl
@[simp] theorem State.regs_setCf (s : State) (c : Trit) : (s.setCf c).regs = s.regs := rfl
@[simp] theorem State.pc_setCf (s : State) (c : Trit) : (s.setCf c).pc = s.pc := rfl
@[simp] theorem State.cf_setCf (s : State) (c : Trit) : (s.setCf c).cf = c := rfl
@[simp] theorem State.latch_setCf (s : State) (c : Trit) : (s.setCf c).latch = s.latch := rfl
@[simp] theorem State.mem_setCf (s : State) (c : Trit) : (s.setCf c).mem = s.mem := rfl

@[simp] theorem State.reg_setMem (s : State) (m : Memory) (r : Reg) : (s.setMem m).reg r = s.reg r := rfl
@[simp] theorem State.regs_setMem (s : State) (m : Memory) : (s.setMem m).regs = s.regs := rfl
@[simp] theorem State.pc_setMem (s : State) (m : Memory) : (s.setMem m).pc = s.pc := rfl
@[simp] theorem State.cf_setMem (s : State) (m : Memory) : (s.setMem m).cf = s.cf := rfl
@[simp] theorem State.latch_setMem (s : State) (m : Memory) : (s.setMem m).latch = s.latch := rfl
@[simp] theorem State.mem_setMem (s : State) (m : Memory) : (s.setMem m).mem = m := rfl

@[simp] theorem State.reg_setLatch (s : State) (l : FaultLatch) (r : Reg) : (s.setLatch l).reg r = s.reg r := rfl
@[simp] theorem State.regs_setLatch (s : State) (l : FaultLatch) : (s.setLatch l).regs = s.regs := rfl
@[simp] theorem State.pc_setLatch (s : State) (l : FaultLatch) : (s.setLatch l).pc = s.pc := rfl
@[simp] theorem State.cf_setLatch (s : State) (l : FaultLatch) : (s.setLatch l).cf = s.cf := rfl
@[simp] theorem State.latch_setLatch (s : State) (l : FaultLatch) : (s.setLatch l).latch = l := rfl
@[simp] theorem State.mem_setLatch (s : State) (l : FaultLatch) : (s.setLatch l).mem = s.mem := rfl

@[simp] theorem State.reg_advancePc (s : State) (n : Int) (r : Reg) : (s.advancePc n).reg r = s.reg r := by
  simp only [State.advancePc, State.reg_setPc]
@[simp] theorem State.regs_advancePc (s : State) (n : Int) : (s.advancePc n).regs = s.regs := by
  simp only [State.advancePc, State.regs_setPc]
@[simp] theorem State.pc_advancePc (s : State) (n : Int) : (s.advancePc n).pc = addressPlus s.pc n := by
  simp only [State.advancePc, State.pc_setPc]
@[simp] theorem State.cf_advancePc (s : State) (n : Int) : (s.advancePc n).cf = s.cf := by
  simp only [State.advancePc, State.cf_setPc]
@[simp] theorem State.latch_advancePc (s : State) (n : Int) : (s.advancePc n).latch = s.latch := by
  simp only [State.advancePc, State.latch_setPc]
@[simp] theorem State.mem_advancePc (s : State) (n : Int) : (s.advancePc n).mem = s.mem := by
  simp only [State.advancePc, State.mem_setPc]

@[simp] theorem State.src_reg (s : State) (y : Reg) : s.src (.reg y) = s.reg y := rfl
@[simp] theorem State.src_short (s : State) (imm : Int) : s.src (.short imm) = shortWord imm := rfl
@[simp] theorem State.src_word (s : State) (z : Word) : s.src (.word z) = z := rfl

end Sys2Proof.Machine
end

