-- ==== Sys2Proof/Laws/Exec.lean ====
section
/-! SUPPORT. What each shared operation of the meanings does, once; then what exec can do (`exec_cases`), from which every
frame and invariant follows without unfolding a meaning again. -/

namespace Sys2Proof.Machine

theorem changesOnlyReg_setReg (x : Reg) (v : Word) (s : State) : changesOnlyReg x s (s.setReg x v) :=
  ⟨fun _ h => State.reg_setReg_other s x _ v h, rfl, rfl, rfl, fun _ => rfl⟩

theorem changesOnlyCf_setCf (c : Trit) (s : State) : changesOnlyCf s (s.setCf c) :=
  ⟨fun _ => rfl, rfl, rfl, fun _ => rfl⟩

theorem changesOnlyPc_setPc (v : Word) (s : State) : changesOnlyPc s (s.setPc v) :=
  ⟨fun _ => rfl, rfl, rfl, fun _ => rfl⟩

/-- 44_alu_instructions.md R170. -/
theorem aluInto_spec (f : Word → Word → Word) (x : Reg) (o : Operand) (s : State) :
    (aluInto f x o s).reg x = f (s.reg x) (s.src o) ∧ changesOnlyReg x s (aluInto f x o s) :=
  ⟨State.reg_setReg_same s x _, changesOnlyReg_setReg x _ s⟩

/-- 43_data_movement.md R160. -/
theorem moveInto_spec (x : Reg) (o : Operand) (s : State) :
    (moveInto x o s).reg x = s.src o ∧ changesOnlyReg x s (moveInto x o s) :=
  ⟨State.reg_setReg_same s x _, changesOnlyReg_setReg x _ s⟩

/-- 43_data_movement.md R161. -/
theorem loadInto_spec (x : Reg) (o : Operand) (s : State) :
    (loadInto x o s).reg x = s.mem.load (s.src o) ∧ changesOnlyReg x s (loadInto x o s) :=
  ⟨State.reg_setReg_same s x _, changesOnlyReg_setReg x _ s⟩

/-- 43_data_movement.md R163. -/
theorem compareWith_spec (x : Reg) (o : Operand) (s : State) :
    (compareWith x o s).cf.val = Int.sign ((s.reg x).val - (s.src o).val)
      ∧ changesOnlyCf s (compareWith x o s) :=
  ⟨sgn_val _, changesOnlyCf_setCf _ s⟩

/-- 45_control_flow.md R191. -/
theorem jumpTo_spec (o : Operand) (s : State) : (jumpTo o s).pc = s.src o ∧ changesOnlyPc s (jumpTo o s) :=
  ⟨rfl, changesOnlyPc_setPc _ s⟩

/-- 45_control_flow.md R192 to R194. -/
theorem branchIf_spec (taken : Bool) (o : Operand) (s : State) :
    (branchIf taken o s).pc = (if taken then s.src o else s.pc) ∧ changesOnlyPc s (branchIf taken o s) := by
  cases taken
  · exact ⟨rfl, fun _ => rfl, rfl, rfl, fun _ => rfl⟩
  · exact ⟨rfl, changesOnlyPc_setPc _ s⟩

/-- 45_control_flow.md R195. -/
theorem jumpAndLink_spec (o : Operand) (s : State) :
    (jumpAndLink o s).pc = s.src o ∧ (jumpAndLink o s).reg .ra = s.pc
      ∧ (∀ r, r ≠ .ra → (jumpAndLink o s).reg r = s.reg r)
      ∧ (jumpAndLink o s).cf = s.cf ∧ (jumpAndLink o s).latch = s.latch ∧ sameCells s (jumpAndLink o s) :=
  ⟨rfl, State.reg_setReg_same s .ra _, fun _ h => State.reg_setReg_other s .ra _ _ h, rfl, rfl, fun _ => rfl⟩

/-- A branch sets the pc, to the target or to what it was. -/
theorem branchIf_setPc (taken : Bool) (o : Operand) (s : State) : ∃ v, branchIf taken o s = s.setPc v := by
  cases taken
  · exact ⟨s.pc, rfl⟩
  · exact ⟨s.src o, rfl⟩

/-- The effects an instruction can have, by its opcode value. -/
inductive ExecEffect (i : Instr) (s : State) : State → Prop where
  | nothing (h : opcodeOf i = 0) : ExecEffect i s s
  | writesReg (x : Reg) (v : Word) (hx : writtenReg i = some x)
      (h : opcodeOf i ≠ 2 ∧ (opcodeOf i < 3 ∨ 7 < opcodeOf i)) : ExecEffect i s (s.setReg x v)
  | writesCf (c : Trit) (h : opcodeOf i = 2) : ExecEffect i s (s.setCf c)
  | writesPc (v : Word) (h : 3 ≤ opcodeOf i ∧ opcodeOf i ≤ 6) : ExecEffect i s (s.setPc v)
  | links (v : Word) (h : opcodeOf i = 7) (hr : writtenReg i = some .ra) :
      ExecEffect i s ((s.setReg .ra s.pc).setPc v)

theorem writtenReg_x (i : Instr) (x : Reg) (hx : i.toRecord.x = x.selector)
    (h : ¬ (opcodeOf i = 0 ∨ (2 ≤ opcodeOf i ∧ opcodeOf i ≤ 6)) ∧ opcodeOf i ≠ 7) : writtenReg i = some x := by
  rw [writtenReg, if_neg h.1, if_neg h.2, hx, Reg.ofSelector_selector]

/-- A fact about the value of an opcode, decided on the opcode alone: neither NOP nor one of 2 to 7. -/
theorem notBranch (o : Opcode) (h : ¬ (o.code = 0 ∨ (2 ≤ o.code ∧ o.code ≤ 6)) ∧ o.code ≠ 7) :
    ¬ (o.code = 0 ∨ (2 ≤ o.code ∧ o.code ≤ 6)) ∧ o.code ≠ 7 := h

/-- The same: neither CMP nor a control-flow opcode. -/
theorem notCmp (o : Opcode) (h : o.code ≠ 2 ∧ (o.code < 3 ∨ 7 < o.code)) :
    o.code ≠ 2 ∧ (o.code < 3 ∨ 7 < o.code) := h

/-- The same: JMP, BEQ, BGT or BLT. -/
theorem isBranch (o : Opcode) (h : 3 ≤ o.code ∧ o.code ≤ 6) : 3 ≤ o.code ∧ o.code ≤ 6 := h

theorem branchEffect {i : Instr} {s : State} (taken : Bool) (o : Operand)
    (he : exec i s = .next (branchIf taken o s)) (h : 3 ≤ opcodeOf i ∧ opcodeOf i ≤ 6) :
    ∃ t, exec i s = .next t ∧ ExecEffect i s t := by
  obtain ⟨v, hv⟩ := branchIf_setPc taken o s
  exact ⟨_, he, hv ▸ .writesPc v h⟩

/-- What exec can do: it answers a next state for every instruction and state, and that state differs by one of five
effects. -/
theorem exec_cases (i : Instr) (s : State) : ∃ t, exec i s = .next t ∧ ExecEffect i s t := by
  cases i with
  | addRR x y => exact ⟨_, rfl, .writesReg x _ (writtenReg_x _ x rfl (notBranch .add (by decide))) (notCmp .add (by decide))⟩
  | addSI x imm => exact ⟨_, rfl, .writesReg x _ (writtenReg_x _ x rfl (notBranch .add (by decide))) (notCmp .add (by decide))⟩
  | addWI x z => exact ⟨_, rfl, .writesReg x _ (writtenReg_x _ x rfl (notBranch .add (by decide))) (notCmp .add (by decide))⟩
  | addcRR x y => exact ⟨_, rfl, .writesReg x _ (writtenReg_x _ x rfl (notBranch .addc (by decide))) (notCmp .addc (by decide))⟩
  | addcSI x imm => exact ⟨_, rfl, .writesReg x _ (writtenReg_x _ x rfl (notBranch .addc (by decide))) (notCmp .addc (by decide))⟩
  | addcWI x z => exact ⟨_, rfl, .writesReg x _ (writtenReg_x _ x rfl (notBranch .addc (by decide))) (notCmp .addc (by decide))⟩
  | mulRR x y => exact ⟨_, rfl, .writesReg x _ (writtenReg_x _ x rfl (notBranch .mul (by decide))) (notCmp .mul (by decide))⟩
  | mulSI x imm => exact ⟨_, rfl, .writesReg x _ (writtenReg_x _ x rfl (notBranch .mul (by decide))) (notCmp .mul (by decide))⟩
  | mulWI x z => exact ⟨_, rfl, .writesReg x _ (writtenReg_x _ x rfl (notBranch .mul (by decide))) (notCmp .mul (by decide))⟩
  | divRR x y => exact ⟨_, rfl, .writesReg x _ (writtenReg_x _ x rfl (notBranch .div (by decide))) (notCmp .div (by decide))⟩
  | divSI x imm => exact ⟨_, rfl, .writesReg x _ (writtenReg_x _ x rfl (notBranch .div (by decide))) (notCmp .div (by decide))⟩
  | divWI x z => exact ⟨_, rfl, .writesReg x _ (writtenReg_x _ x rfl (notBranch .div (by decide))) (notCmp .div (by decide))⟩
  | modRR x y => exact ⟨_, rfl, .writesReg x _ (writtenReg_x _ x rfl (notBranch .mod (by decide))) (notCmp .mod (by decide))⟩
  | modSI x imm => exact ⟨_, rfl, .writesReg x _ (writtenReg_x _ x rfl (notBranch .mod (by decide))) (notCmp .mod (by decide))⟩
  | modWI x z => exact ⟨_, rfl, .writesReg x _ (writtenReg_x _ x rfl (notBranch .mod (by decide))) (notCmp .mod (by decide))⟩
  | negRR x y => exact ⟨_, rfl, .writesReg x _ (writtenReg_x _ x rfl (notBranch .neg (by decide))) (notCmp .neg (by decide))⟩
  | negSI x imm => exact ⟨_, rfl, .writesReg x _ (writtenReg_x _ x rfl (notBranch .neg (by decide))) (notCmp .neg (by decide))⟩
  | negWI x z => exact ⟨_, rfl, .writesReg x _ (writtenReg_x _ x rfl (notBranch .neg (by decide))) (notCmp .neg (by decide))⟩
  | minRR x y => exact ⟨_, rfl, .writesReg x _ (writtenReg_x _ x rfl (notBranch .min (by decide))) (notCmp .min (by decide))⟩
  | minSI x imm => exact ⟨_, rfl, .writesReg x _ (writtenReg_x _ x rfl (notBranch .min (by decide))) (notCmp .min (by decide))⟩
  | minWI x z => exact ⟨_, rfl, .writesReg x _ (writtenReg_x _ x rfl (notBranch .min (by decide))) (notCmp .min (by decide))⟩
  | maxRR x y => exact ⟨_, rfl, .writesReg x _ (writtenReg_x _ x rfl (notBranch .max (by decide))) (notCmp .max (by decide))⟩
  | maxSI x imm => exact ⟨_, rfl, .writesReg x _ (writtenReg_x _ x rfl (notBranch .max (by decide))) (notCmp .max (by decide))⟩
  | maxWI x z => exact ⟨_, rfl, .writesReg x _ (writtenReg_x _ x rfl (notBranch .max (by decide))) (notCmp .max (by decide))⟩
  | conRR x y => exact ⟨_, rfl, .writesReg x _ (writtenReg_x _ x rfl (notBranch .con (by decide))) (notCmp .con (by decide))⟩
  | conSI x imm => exact ⟨_, rfl, .writesReg x _ (writtenReg_x _ x rfl (notBranch .con (by decide))) (notCmp .con (by decide))⟩
  | conWI x z => exact ⟨_, rfl, .writesReg x _ (writtenReg_x _ x rfl (notBranch .con (by decide))) (notCmp .con (by decide))⟩
  | anyRR x y => exact ⟨_, rfl, .writesReg x _ (writtenReg_x _ x rfl (notBranch .any (by decide))) (notCmp .any (by decide))⟩
  | anySI x imm => exact ⟨_, rfl, .writesReg x _ (writtenReg_x _ x rfl (notBranch .any (by decide))) (notCmp .any (by decide))⟩
  | anyWI x z => exact ⟨_, rfl, .writesReg x _ (writtenReg_x _ x rfl (notBranch .any (by decide))) (notCmp .any (by decide))⟩
  | rshRR x y => exact ⟨_, rfl, .writesReg x _ (writtenReg_x _ x rfl (notBranch .rsh (by decide))) (notCmp .rsh (by decide))⟩
  | rshSI x imm => exact ⟨_, rfl, .writesReg x _ (writtenReg_x _ x rfl (notBranch .rsh (by decide))) (notCmp .rsh (by decide))⟩
  | rshWI x z => exact ⟨_, rfl, .writesReg x _ (writtenReg_x _ x rfl (notBranch .rsh (by decide))) (notCmp .rsh (by decide))⟩
  | ushRR x y => exact ⟨_, rfl, .writesReg x _ (writtenReg_x _ x rfl (notBranch .ush (by decide))) (notCmp .ush (by decide))⟩
  | ushSI x imm => exact ⟨_, rfl, .writesReg x _ (writtenReg_x _ x rfl (notBranch .ush (by decide))) (notCmp .ush (by decide))⟩
  | ushWI x z => exact ⟨_, rfl, .writesReg x _ (writtenReg_x _ x rfl (notBranch .ush (by decide))) (notCmp .ush (by decide))⟩
  | nopRR => exact ⟨_, rfl, .nothing rfl⟩
  | nopSI => exact ⟨_, rfl, .nothing rfl⟩
  | nopWI z => exact ⟨_, rfl, .nothing rfl⟩
  | movRR x y => exact ⟨_, rfl, .writesReg x _ (writtenReg_x _ x rfl (notBranch .mov (by decide))) (notCmp .mov (by decide))⟩
  | movSI x imm => exact ⟨_, rfl, .writesReg x _ (writtenReg_x _ x rfl (notBranch .mov (by decide))) (notCmp .mov (by decide))⟩
  | movWI x z => exact ⟨_, rfl, .writesReg x _ (writtenReg_x _ x rfl (notBranch .mov (by decide))) (notCmp .mov (by decide))⟩
  | cmpRR x y => exact ⟨_, rfl, .writesCf _ rfl⟩
  | cmpSI x imm => exact ⟨_, rfl, .writesCf _ rfl⟩
  | cmpWI x z => exact ⟨_, rfl, .writesCf _ rfl⟩
  | jmpRR y => exact ⟨_, rfl, .writesPc _ (isBranch .jmp (by decide))⟩
  | jmpSI imm => exact ⟨_, rfl, .writesPc _ (isBranch .jmp (by decide))⟩
  | jmpWI z => exact ⟨_, rfl, .writesPc _ (isBranch .jmp (by decide))⟩
  | beqRR y => exact branchEffect s.flagEqual (.reg y) rfl (isBranch .beq (by decide))
  | beqSI imm => exact branchEffect s.flagEqual (.short imm) rfl (isBranch .beq (by decide))
  | beqWI z => exact branchEffect s.flagEqual (.word z) rfl (isBranch .beq (by decide))
  | bgtRR y => exact branchEffect s.flagGreater (.reg y) rfl (isBranch .bgt (by decide))
  | bgtSI imm => exact branchEffect s.flagGreater (.short imm) rfl (isBranch .bgt (by decide))
  | bgtWI z => exact branchEffect s.flagGreater (.word z) rfl (isBranch .bgt (by decide))
  | bltRR y => exact branchEffect s.flagLess (.reg y) rfl (isBranch .blt (by decide))
  | bltSI imm => exact branchEffect s.flagLess (.short imm) rfl (isBranch .blt (by decide))
  | bltWI z => exact branchEffect s.flagLess (.word z) rfl (isBranch .blt (by decide))
  | jalRR y => exact ⟨_, rfl, .links _ rfl rfl⟩
  | jalSI imm => exact ⟨_, rfl, .links _ rfl rfl⟩
  | jalWI z => exact ⟨_, rfl, .links _ rfl rfl⟩
  | lodRR x y => exact ⟨_, rfl, .writesReg x _ (writtenReg_x _ x rfl (notBranch .lod (by decide))) (notCmp .lod (by decide))⟩
  | lodSI x imm => exact ⟨_, rfl, .writesReg x _ (writtenReg_x _ x rfl (notBranch .lod (by decide))) (notCmp .lod (by decide))⟩
  | lodWI x z => exact ⟨_, rfl, .writesReg x _ (writtenReg_x _ x rfl (notBranch .lod (by decide))) (notCmp .lod (by decide))⟩
  | xorRR x y => exact ⟨_, rfl, .writesReg x _ (writtenReg_x _ x rfl (notBranch .xor (by decide))) (notCmp .xor (by decide))⟩
  | xorSI x imm => exact ⟨_, rfl, .writesReg x _ (writtenReg_x _ x rfl (notBranch .xor (by decide))) (notCmp .xor (by decide))⟩
  | xorWI x z => exact ⟨_, rfl, .writesReg x _ (writtenReg_x _ x rfl (notBranch .xor (by decide))) (notCmp .xor (by decide))⟩

end Sys2Proof.Machine
end

