-- ==== Sys2Proof/Laws/Memory.lean ====
section
/-! SUPPORT. What the memory operations do, and that each keeps the canonical form. -/

namespace Sys2Proof.Machine

theorem Memory.cell_drop (m : Memory) (a b : Int) :
    (m.drop a).cell b = if b = a then Memory.unlisted else m.cell b := by
  induction m with
  | nil => simp [Memory.drop, Memory.cell]
  | cons c rest ih =>
    obtain ⟨k, v⟩ := c
    simp only [Memory.drop] at ih ⊢
    by_cases hk : k = a
    · subst hk
      rw [List.filter_cons_of_neg (by simp), ih]
      by_cases hb : b = k
      · simp [hb]
      · simp [hb, Memory.cell, Ne.symm hb]
    · rw [List.filter_cons_of_pos (by simpa using hk)]
      simp only [Memory.cell, ih]
      by_cases hb : k = b
      · subst hb; simp [hk]
      · simp [hb]

theorem Memory.cell_insert (m : Memory) (a b : Int) (v : Word) (h : m.drop a = m) :
    (m.insert a v).cell b = if b = a then v else m.cell b := by
  induction m with
  | nil => simp [Memory.insert, Memory.cell, eq_comm]
  | cons c rest ih =>
    obtain ⟨k, u⟩ := c
    have hk : k ≠ a := by
      intro hk
      have h' := congrArg List.length h
      have hle : (Memory.drop rest a).length ≤ rest.length := List.length_filter_le _ _
      rw [Memory.drop, List.filter_cons_of_neg (by simpa using hk)] at h'
      simp only [Memory.drop, List.length_cons] at h' hle
      omega
    have hrest : Memory.drop rest a = rest := by
      rw [Memory.drop, List.filter_cons_of_pos (by simpa using hk)] at h
      exact (List.cons.inj h).2
    unfold Memory.insert
    split
    · simp [Memory.cell, eq_comm]
    · simp only [Memory.cell, ih hrest]
      by_cases hb : k = b
      · subst hb; simp [hk]
      · simp [hb]

theorem Memory.drop_drop (m : Memory) (a : Int) : (m.drop a).drop a = m.drop a := by
  simp [Memory.drop, List.filter_filter]

/-- The one lemma about writing a cell: the cell written reads as the value, every other as before. It holds of every list
of cells, canonical or not. -/
theorem Memory.cell_setCell (m : Memory) (a b : Int) (v : Word) :
    (m.setCell a v).cell b = if b = a then v else m.cell b := by
  unfold Memory.setCell
  split
  · next h => rw [Memory.cell_drop, h]
  · rw [Memory.cell_insert _ _ _ _ (Memory.drop_drop m a), Memory.cell_drop]
    by_cases hb : b = a <;> simp [hb]

theorem Memory.wf_drop {m : Memory} (a : Int) (h : m.wf) : (m.drop a).wf :=
  ⟨h.1.filter _, fun c hc => h.2 c (List.mem_of_mem_filter hc)⟩

theorem Memory.mem_insert {m : Memory} {a : Int} {v : Word} {c : Int × Word} (h : c ∈ m.insert a v) :
    c = (a, v) ∨ c ∈ m := by
  induction m with
  | nil => exact .inl (by simpa [Memory.insert] using h)
  | cons d rest ih =>
    obtain ⟨k, u⟩ := d
    unfold Memory.insert at h
    split at h
    · simpa using h
    · rcases List.mem_cons.mp h with h | h
      · exact .inr (List.mem_cons.mpr (.inl h))
      · exact (ih h).imp id fun h => List.mem_cons.mpr (.inr h)

theorem Memory.pairwise_insert {m : Memory} (a : Int) (v : Word) (h : m.Pairwise fun c d => c.1 < d.1)
    (hne : ∀ c ∈ m, c.1 ≠ a) : (m.insert a v).Pairwise fun c d => c.1 < d.1 := by
  induction m with
  | nil => simp [Memory.insert]
  | cons d rest ih =>
    obtain ⟨k, u⟩ := d
    have hk := hne (k, u) (List.mem_cons.mpr (.inl rfl))
    obtain ⟨hhead, htail⟩ := List.pairwise_cons.mp h
    unfold Memory.insert
    split
    · next hlt =>
      refine List.pairwise_cons.mpr ⟨fun c hc => ?_, h⟩
      rcases List.mem_cons.mp hc with rfl | hc
      · exact hlt
      · exact lt_trans hlt (hhead c hc)
    · next hge =>
      refine List.pairwise_cons.mpr ⟨fun c hc => ?_, ih htail fun c hc => hne c (List.mem_cons.mpr (.inr hc))⟩
      rcases Memory.mem_insert hc with rfl | hc
      · simp only [not_lt] at hge ⊢
        exact lt_of_le_of_ne hge hk
      · exact hhead c hc

/-- Writing a cell of the address space keeps the canonical form. -/
theorem Memory.wf_setCell {m : Memory} {a : Int} (v : Word) (h : m.wf) (h1 : -9841 ≤ a) (h2 : a ≤ 9841) :
    (m.setCell a v).wf := by
  unfold Memory.setCell
  split
  · exact Memory.wf_drop a h
  · next hv =>
    have hd := Memory.wf_drop a h
    refine ⟨Memory.pairwise_insert a v hd.1 fun c hc => ?_, fun c hc => ?_⟩
    · exact by simpa using (List.mem_filter.mp hc).2
    · rcases Memory.mem_insert hc with rfl | hc
      · exact ⟨h1, h2, hv⟩
      · exact hd.2 c hc

/-- A store keeps the canonical form. -/
theorem Memory.wf_store {m : Memory} (v a : Word) (h : m.wf) : (m.store v a).wf :=
  Memory.wf_setCell v h a.val_range.1 a.val_range.2

/-- A cell below every listed one is not listed. -/
theorem Memory.cell_eq_unlisted_of_lt {m : Memory} {a : Int} (h : ∀ c ∈ m, a < c.1) : m.cell a = Memory.unlisted := by
  induction m with
  | nil => rfl
  | cons c rest ih =>
    have hc := h c List.mem_cons_self
    rw [Memory.cell, if_neg (by omega)]
    exact ih fun d hd => h d (List.mem_cons_of_mem _ hd)

/-- Memory after reset has the canonical form. -/
theorem Memory.wf_reset : State.reset.mem.wf := by
  decide

/-- A canonical memory lists exactly the cells that do not hold the zero word. -/
theorem Memory.mem_iff_cell {m : Memory} (h : m.wf) (a : Int) (v : Word) :
    (a, v) ∈ m ↔ v ≠ Memory.unlisted ∧ m.cell a = v := by
  induction m with
  | nil => simp [Memory.cell, eq_comm]
  | cons d rest ih =>
    obtain ⟨k, u⟩ := d
    obtain ⟨hhead, htail⟩ := List.pairwise_cons.mp h.1
    have hu : u ≠ Memory.unlisted := (h.2 (k, u) (List.mem_cons.mpr (.inl rfl))).2.2
    have ih := ih ⟨htail, fun c hc => h.2 c (List.mem_cons.mpr (.inr hc))⟩
    simp only [List.mem_cons, Prod.mk.injEq, Memory.cell]
    by_cases hk : k = a
    · subst hk
      have hno : ∀ w, (k, w) ∉ rest := fun w hw => lt_irrefl k (hhead (k, w) hw)
      simp only [hno v, or_false, if_true, true_and]
      exact ⟨fun e => ⟨e ▸ hu, e.symm⟩, fun e => e.2.symm⟩
    · simp only [Ne.symm hk, hk, if_false, false_and, false_or]
      exact ih

end Sys2Proof.Machine
end

