-- ==== Sys2Proof/Laws/Step.lean ====
section
/-! SUPPORT. What a step and a host transaction can do, each said once. -/

namespace Sys2Proof.Machine

theorem decode_of_decode1_error {w z : Word} (h : decode1 w = .error .decodeError) :
    decode w z = .error .decodeError := by
  simp only [decode, h]

theorem decode1_of_decode_error {w z : Word} {e : ErrorKind} (h : decode w z = .error e) :
    decode1 w = .error .decodeError := by
  rcases decode1_cases w with ⟨o, m, _, _, hd⟩ | ⟨_, hd⟩
  · simp only [decode, hd] at h
    exact absurd h (by simp)
  · exact hd

/-- What the optional decode answers: a store only where STA_OPCODE is set, the opcode is its slot and the mode legal. -/
theorem decodeSta_cases (sta : Option Config.FreeOpcode) (w z : Word) :
    (∃ k m, sta = some k ∧ opcodeField w = k.code ∧ Mode.ofCode (modeField w) = some m
        ∧ decodeSta sta w z = some (Reg.ofSelector (xField w), operandOf m (yField w) z))
      ∨ decodeSta sta w z = none := by
  cases sta with
  | none => exact .inr rfl
  | some k =>
    unfold decodeSta
    by_cases hk : opcodeField w = k.code
    · cases hm : Mode.ofCode (modeField w) with
      | none => exact .inr (by simp [hk])
      | some m => exact .inl ⟨k, m, rfl, hk, rfl, by simp [hk]⟩
    · exact .inr (by simp [hk])

/-- What a step can do. -/
theorem stepWith_cases (sta : Option Config.FreeOpcode) (s : State) :
    (∃ a w, s.latch = .set a w ∧ stepWith sta s = .fault (.decodeError a w))
      ∨ (s.latch = .clear ∧ decode1 s.fetchWord = .error .decodeError
          ∧ decodeSta sta s.fetchWord s.secondWord = none
          ∧ stepWith sta s = .next (takeDecodeError s s.fetchWord))
      ∨ (s.latch = .clear ∧ ∃ x o, decodeSta sta s.fetchWord s.secondWord = some (x, o)
          ∧ stepWith sta s = .next (storeFrom x o (s.advancePc o.length)))
      ∨ (s.latch = .clear ∧ decodeSta sta s.fetchWord s.secondWord = none
          ∧ ∃ i, decode s.fetchWord s.secondWord = .ok i
          ∧ stepWith sta s = exec i (s.advancePc i.length)) := by
  cases hl : s.latch with
  | set a w => exact .inl ⟨a, w, rfl, by simp only [stepWith, hl]⟩
  | clear =>
    cases hs : decodeSta sta s.fetchWord s.secondWord with
    | some p =>
      obtain ⟨x, o⟩ := p
      exact .inr (.inr (.inl ⟨rfl, x, o, rfl, by simp only [stepWith, hl, fetchDecode, hs]⟩))
    | none =>
      cases hd : decode s.fetchWord s.secondWord with
      | ok i => exact .inr (.inr (.inr ⟨rfl, rfl, i, rfl, by simp only [stepWith, hl, fetchDecode, hs, hd]⟩))
      | error e =>
        exact .inr (.inl ⟨rfl, decode1_of_decode_error hd, rfl, by simp only [stepWith, hl, fetchDecode, hs, hd]⟩)

/-- What a step of the base machine can do: with STA_OPCODE none there is no store. -/
theorem step_cases (s : State) :
    (∃ a w, s.latch = .set a w ∧ step s = .fault (.decodeError a w))
      ∨ (s.latch = .clear ∧ decode1 s.fetchWord = .error .decodeError
          ∧ step s = .next (takeDecodeError s s.fetchWord))
      ∨ (s.latch = .clear ∧ ∃ i, decode s.fetchWord s.secondWord = .ok i
          ∧ step s = exec i (s.advancePc i.length)) := by
  rcases stepWith_cases Config.staOpcode s with h | ⟨h1, h2, _, h3⟩ | ⟨_, x, o, h, _⟩ | ⟨h1, _, h2⟩
  · exact .inl h
  · exact .inr (.inl ⟨h1, h2, h3⟩)
  · exact absurd h (by simp [Config.staOpcode, decodeSta])
  · exact .inr (.inr ⟨h1, h2⟩)

/-- What a HostStore does: both arguments are words or in range and one cell is written, or an error and no state. -/
theorem hostStore_cases (s : State) (value address : PortArg) :
    (∃ v a, value.toWord = .ok v ∧ address.toWord = .ok a
        ∧ hostStore s value address = .ok (s.setMem (s.mem.store v a)))
      ∨ ∃ e, hostStore s value address = .error e := by
  cases hv : value.toWord with
  | error e => exact .inr ⟨e, by simp only [hostStore, hv]⟩
  | ok v =>
    cases ha : address.toWord with
    | error e => exact .inr ⟨e, by simp only [hostStore, hv, ha]⟩
    | ok a => exact .inl ⟨v, a, rfl, rfl, by simp only [hostStore, hv, ha]⟩

/-- The state after a transaction: unchanged, one cell stored, a step's next state, or the reset state. -/
theorem transactWith_state (sta : Option Config.FreeOpcode) (t : Transaction) (s : State) :
    (transactWith sta t s).1 = s
      ∨ (∃ v a, (transactWith sta t s).1 = s.setMem (s.mem.store v a))
      ∨ stepWith sta s = .next (transactWith sta t s).1
      ∨ (t = .reset ∧ (transactWith sta t s).1 = State.reset) := by
  cases t with
  | load address =>
    refine .inl ?_
    simp only [transactWith]
    split <;> rfl
  | store value address =>
    rcases hostStore_cases s value address with ⟨v, a, _, _, h⟩ | ⟨e, h⟩
    · exact .inr (.inl ⟨v, a, by simp only [transactWith, h]⟩)
    · exact .inl (by simp only [transactWith, h])
  | next =>
    cases h : stepWith sta s with
    | next t => exact .inr (.inr (.inl (by simp only [transactWith, h])))
    | fault r => cases r; exact .inl (by simp only [transactWith, h])
    | refused r => exact .inl (by simp only [transactWith, h])
  | reset => exact .inr (.inr (.inr ⟨rfl, rfl⟩))

/-- The base machine's transactions are those with STA_OPCODE at its default. -/
theorem transact_eq (t : Transaction) (s : State) : transact t s = transactWith Config.staOpcode t s :=
  rfl

theorem transactAll_eq (ts : List Transaction) (s : State) :
    transactAll ts s = transactAllWith Config.staOpcode ts s :=
  rfl

/-- A sequence of transactions keeps what every transaction of it keeps. -/
theorem transactAllWith_induction {sta : Option Config.FreeOpcode} {P : State → Prop} {ts : List Transaction} {s : State}
    (h : ∀ t ∈ ts, ∀ u, P u → P (transactWith sta t u).1) (hs : P s) : P (transactAllWith sta ts s).1 := by
  induction ts generalizing s with
  | nil => exact hs
  | cons t ts ih =>
    exact ih (fun t' ht' => h t' (List.mem_cons_of_mem _ ht')) (h t List.mem_cons_self s hs)

/-- What loading does to a cell: a cell the image lists takes the image's word, every other cell is kept (assumption log 23). -/
theorem State.cell_loadImage {image : Memory} (h : image.wf) (s : State) (a : Int) :
    (s.loadImage image).mem.cell a
      = if image.cell a = Memory.unlisted then s.mem.cell a else image.cell a := by
  have hv : ∀ c ∈ image, c.2 ≠ Memory.unlisted := fun c hc => (h.2 c hc).2.2
  have hp := h.1
  clear h
  show (image.foldl (fun m c => m.setCell c.1 c.2) s.mem).cell a = _
  generalize s.mem = m
  induction image generalizing m with
  | nil => simp [Memory.cell]
  | cons c rest ih =>
    obtain ⟨hc, hr⟩ := List.pairwise_cons.mp hp
    rw [List.foldl_cons, ih (fun d hd => hv d (List.mem_cons_of_mem _ hd)) hr, Memory.cell_setCell, Memory.cell]
    by_cases ha : c.1 = a
    · subst ha
      rw [Memory.cell_eq_unlisted_of_lt hc]
      simp [hv c List.mem_cons_self]
    · simp [ha, Ne.symm ha]

end Sys2Proof.Machine
end

