-- ==== Sys2Proof/Tests/Slice0.lean ====
section
/-! SUPPORT. The model's own tests. Words are written out as sign strings from 30_encoding.md R52 to R67 and
spec/opcode_table.json; expected results are those of 95_test_vectors.md (section named at each group). -/

open Sys2Proof Sys2Proof.Machine

namespace Sys2Proof.Tests

/-- The word of a sign string; the zero word for a string that is none. -/
def wd (s : String) : Word :=
  match stringToWord s.toList with
  | .ok w => w
  | .error _ => Word.zero

/-- The reset state with some registers, cells and the pc set, and CF. -/
def start (pc : Int) (regs : List (Reg × Int)) (cells : List (Int × String)) (cf : Trit := .zero) : State :=
  let s := regs.foldl (fun s r => s.setReg r.1 (wordOf r.2)) State.reset
  let m : Memory := cells.foldl (fun m c => Memory.setCell m c.1 (wd c.2)) ([] : Memory)
  ((s.setMem m).setPc (wordOf pc)).setCf cf

/-- What one step gives, as the values of the pc and of some registers, and CF; none unless it answers a next state with the
latch clear. -/
def after (s : State) (rs : List Reg) : Option (Int × List Int × Trit) :=
  match step s with
  | .next t => if t.latch = .clear then some (t.pc.val, rs.map fun r => (t.reg r).val, t.cf) else none
  | _ => none

/-! ### Decoding: one word per constructor (30_encoding.md R52 to R64, opcode_table.json) -/

theorem test_decode_add :
    decode (wd "---oo---o") (wd "oooooo+--") = .ok (.addRR .r0 .r1)
      ∧ decode (wd "---o++o++") (wd "+oooooooo") = .ok (.addSI .ra 4)
      ∧ decode (wd "---+-o-oo") (wd "---------") = .ok (.addWI .r3 (wd "---------")) := by
  decide

theorem test_decode_addc :
    decode (wd "--+oo+o++") (wd "+oooooooo") = .ok (.addcRR .ra .sp)
      ∧ decode (wd "--+o+o-oo") (wd "---------") = .ok (.addcSI .r3 0)
      ∧ decode (wd "--++-o+-+") (wd "oooo++-o+") = .ok (.addcWI .r5 (wd "oooo++-o+")) := by
  decide

theorem test_decode_mul :
    decode (wd "-o-ooo-oo") (wd "---------") = .ok (.mulRR .r3 .r4)
      ∧ decode (wd "-o-o+o+-+") (wd "oooo++-o+") = .ok (.mulSI .r5 (-2))
      ∧ decode (wd "-o-+-+++-") (wd "ooooo+-+-") = .ok (.mulWI .sp (wd "ooooo+-+-")) := by
  decide

theorem test_decode_div :
    decode (wd "-ooooo+-+") (wd "oooo++-o+") = .ok (.divRR .r5 .r2)
      ∧ decode (wd "-ooo++++-") (wd "ooooo+-+-") = .ok (.divSI .sp 2)
      ∧ decode (wd "-oo+----o") (wd "oooooo+--") = .ok (.divWI .r0 (wd "oooooo+--")) := by
  decide

theorem test_decode_mod :
    decode (wd "-o+oo+++-") (wd "ooooo+-+-") = .ok (.modRR .sp .r6)
      ∧ decode (wd "-o+o+---o") (wd "oooooo+--") = .ok (.modSI .r0 (-3))
      ∧ decode (wd "-o++-+o++") (wd "+oooooooo") = .ok (.modWI .ra (wd "+oooooooo")) := by
  decide

theorem test_decode_neg :
    decode (wd "-+-oo---o") (wd "oooooo+--") = .ok (.negRR .r0 .r1)
      ∧ decode (wd "-+-o++o++") (wd "+oooooooo") = .ok (.negSI .ra 4)
      ∧ decode (wd "-+-+-o-oo") (wd "---------") = .ok (.negWI .r3 (wd "---------")) := by
  decide

theorem test_decode_min :
    decode (wd "-+ooo+o++") (wd "+oooooooo") = .ok (.minRR .ra .sp)
      ∧ decode (wd "-+oo+o-oo") (wd "---------") = .ok (.minSI .r3 0)
      ∧ decode (wd "-+o+-o+-+") (wd "oooo++-o+") = .ok (.minWI .r5 (wd "oooo++-o+")) := by
  decide

theorem test_decode_max :
    decode (wd "-++ooo-oo") (wd "---------") = .ok (.maxRR .r3 .r4)
      ∧ decode (wd "-++o+o+-+") (wd "oooo++-o+") = .ok (.maxSI .r5 (-2))
      ∧ decode (wd "-+++-+++-") (wd "ooooo+-+-") = .ok (.maxWI .sp (wd "ooooo+-+-")) := by
  decide

theorem test_decode_con :
    decode (wd "o--ooo+-+") (wd "oooo++-o+") = .ok (.conRR .r5 .r2)
      ∧ decode (wd "o--o++++-") (wd "ooooo+-+-") = .ok (.conSI .sp 2)
      ∧ decode (wd "o--+----o") (wd "oooooo+--") = .ok (.conWI .r0 (wd "oooooo+--")) := by
  decide

theorem test_decode_any :
    decode (wd "o-ooo+++-") (wd "ooooo+-+-") = .ok (.anyRR .sp .r6)
      ∧ decode (wd "o-oo+---o") (wd "oooooo+--") = .ok (.anySI .r0 (-3))
      ∧ decode (wd "o-o+-+o++") (wd "+oooooooo") = .ok (.anyWI .ra (wd "+oooooooo")) := by
  decide

theorem test_decode_rsh :
    decode (wd "o-+oo---o") (wd "oooooo+--") = .ok (.rshRR .r0 .r1)
      ∧ decode (wd "o-+o++o++") (wd "+oooooooo") = .ok (.rshSI .ra 4)
      ∧ decode (wd "o-++-o-oo") (wd "---------") = .ok (.rshWI .r3 (wd "---------")) := by
  decide

theorem test_decode_ush :
    decode (wd "oo-oo+o++") (wd "+oooooooo") = .ok (.ushRR .ra .sp)
      ∧ decode (wd "oo-o+o-oo") (wd "---------") = .ok (.ushSI .r3 0)
      ∧ decode (wd "oo-+-o+-+") (wd "oooo++-o+") = .ok (.ushWI .r5 (wd "oooo++-o+")) := by
  decide

theorem test_decode_nop :
    decode (wd "oooooo-oo") (wd "---------") = .ok .nopRR
      ∧ decode (wd "oooo+o+-+") (wd "oooo++-o+") = .ok .nopSI
      ∧ decode (wd "ooo+-+++-") (wd "ooooo+-+-") = .ok (.nopWI (wd "ooooo+-+-")) := by
  decide

theorem test_decode_mov :
    decode (wd "oo+ooo+-+") (wd "oooo++-o+") = .ok (.movRR .r5 .r2)
      ∧ decode (wd "oo+o++++-") (wd "ooooo+-+-") = .ok (.movSI .sp 2)
      ∧ decode (wd "oo++----o") (wd "oooooo+--") = .ok (.movWI .r0 (wd "oooooo+--")) := by
  decide

theorem test_decode_cmp :
    decode (wd "o+-oo+++-") (wd "ooooo+-+-") = .ok (.cmpRR .sp .r6)
      ∧ decode (wd "o+-o+---o") (wd "oooooo+--") = .ok (.cmpSI .r0 (-3))
      ∧ decode (wd "o+-+-+o++") (wd "+oooooooo") = .ok (.cmpWI .ra (wd "+oooooooo")) := by
  decide

theorem test_decode_jmp :
    decode (wd "o+ooo---o") (wd "oooooo+--") = .ok (.jmpRR .r1)
      ∧ decode (wd "o+oo++o++") (wd "+oooooooo") = .ok (.jmpSI 4)
      ∧ decode (wd "o+o+-o-oo") (wd "---------") = .ok (.jmpWI (wd "---------")) := by
  decide

theorem test_decode_beq :
    decode (wd "o++oo+o++") (wd "+oooooooo") = .ok (.beqRR .sp)
      ∧ decode (wd "o++o+o-oo") (wd "---------") = .ok (.beqSI 0)
      ∧ decode (wd "o+++-o+-+") (wd "oooo++-o+") = .ok (.beqWI (wd "oooo++-o+")) := by
  decide

theorem test_decode_bgt :
    decode (wd "+--ooo-oo") (wd "---------") = .ok (.bgtRR .r4)
      ∧ decode (wd "+--o+o+-+") (wd "oooo++-o+") = .ok (.bgtSI (-2))
      ∧ decode (wd "+--+-+++-") (wd "ooooo+-+-") = .ok (.bgtWI (wd "ooooo+-+-")) := by
  decide

theorem test_decode_blt :
    decode (wd "+-oooo+-+") (wd "oooo++-o+") = .ok (.bltRR .r2)
      ∧ decode (wd "+-oo++++-") (wd "ooooo+-+-") = .ok (.bltSI 2)
      ∧ decode (wd "+-o+----o") (wd "oooooo+--") = .ok (.bltWI (wd "oooooo+--")) := by
  decide

theorem test_decode_jal :
    decode (wd "+-+oo+++-") (wd "ooooo+-+-") = .ok (.jalRR .r6)
      ∧ decode (wd "+-+o+---o") (wd "oooooo+--") = .ok (.jalSI (-3))
      ∧ decode (wd "+-++-+o++") (wd "+oooooooo") = .ok (.jalWI (wd "+oooooooo")) := by
  decide

theorem test_decode_lod :
    decode (wd "+o-oo---o") (wd "oooooo+--") = .ok (.lodRR .r0 .r1)
      ∧ decode (wd "+o-o++o++") (wd "+oooooooo") = .ok (.lodSI .ra 4)
      ∧ decode (wd "+o-+-o-oo") (wd "---------") = .ok (.lodWI .r3 (wd "---------")) := by
  decide

theorem test_decode_xor :
    decode (wd "+oooo+o++") (wd "+oooooooo") = .ok (.xorRR .ra .sp)
      ∧ decode (wd "+ooo+o-oo") (wd "---------") = .ok (.xorSI .r3 0)
      ∧ decode (wd "+oo+-o+-+") (wd "oooo++-o+") = .ok (.xorWI .r5 (wd "oooo++-o+")) := by
  decide

/-! ### Illegal words (95_test_vectors.md 2.5) -/

theorem test_decode_illegal :
    (["--ooooooo", "+o+oooooo", "++-oooooo", "++ooooooo", "+++oooooo",
      "ooo--oooo", "ooo-ooooo", "ooo-+oooo", "oooo-oooo", "ooo+ooooo",
      "ooo++oooo", "---------", "+++++++++"].all fun w => decide (decode (wd w) Word.zero = .error .decodeError)) = true := by
  decide

/-! ### Encoding (30_encoding.md R64, R67) -/

theorem test_encode_add_short : encode (.addSI .r0 1) = .ok (wd "---o+--o+", none) := by decide
theorem test_encode_lod_word :
    encode (.lodWI .r1 (wd "oooo++-o+")) = .ok (wd "+o-+--ooo", some (wd "oooo++-o+")) := by decide
theorem test_encode_jmp_ra : encode (.jmpRR .ra) = .ok (wd "o+ooooo+o", none) := by decide

/-! ### Well-formedness: each check refuses an ill-formed term (30_encoding.md R65) -/

theorem test_wf_accepts : (⟨-13, .shortImmediate, -4, 4, none⟩ : Record).wf := by decide
theorem test_wf_refuses_reserved_opcode : ¬ (⟨-12, .registerRegister, 0, 0, none⟩ : Record).wf := by decide
theorem test_wf_refuses_x : ¬ (⟨1, .registerRegister, 5, 0, none⟩ : Record).wf := by decide
theorem test_wf_refuses_y : ¬ (⟨1, .registerRegister, 0, -5, none⟩ : Record).wf := by decide
theorem test_wf_refuses_missing_z : ¬ (⟨1, .wordImmediate, 0, 0, none⟩ : Record).wf := by decide
theorem test_wf_refuses_extra_z : ¬ (⟨1, .shortImmediate, 0, 0, some (.word Word.zero)⟩ : Record).wf := by decide
theorem test_wf_refuses_unresolved_label : ¬ (⟨3, .wordImmediate, 0, 0, some .unresolvedLabel⟩ : Record).wf := by
  decide
theorem test_wf_refuses_short_immediate : ¬ (Instr.movSI .r0 5).wf := by decide
theorem test_encode_refuses_short_immediate : encode (.movSI .r0 5) = .error .encodeError := by decide

/-! ### The numeral codec (95_test_vectors.md 2.1) -/

theorem test_intToWord : intToWord 4921 = .ok (wd "+-+-+-+-+") ∧ intToWord (-13) = .ok (wd "oooooo---") := by decide
theorem test_intToWord_range : intToWord 9842 = .error .rangeError ∧ intToWord (-9842) = .error .rangeError := by
  decide
theorem test_stringToWord_refuses :
    (["oooooooo", "oooooooooo", "", "ooooooooO", "000000000", "oooo ooo+"].all fun s =>
      decide (stringToWord s.toList = .error .formatError)) = true := by
  decide
theorem test_wordToString : wordToString (wordOf 100) = "oooo++-o+".toList := by decide
theorem test_digits :
    digitsToInt [.pos, .neg] = 2 ∧ digitsToInt [] = 0 ∧ intToDigits (-4) 2 = .ok [.neg, .neg]
      ∧ intToDigits 5 2 = .error .rangeError ∧ intToDigits 14 3 = .error .rangeError := by
  decide
theorem test_intPort :
    intPort (BitVec.ofInt 15 (-9841)) = .ok (wd "---------") ∧ intPort (BitVec.ofInt 15 9842) = .error .rangeError := by
  decide

/-! ### The ALU (95_test_vectors.md 2.2 to 2.4) -/

theorem test_logic_tables :
    Alu.min (wd "+-o+-o+-o") (wd "+++ooo---") = wd "+-oo-o---"
      ∧ Alu.max (wd "+-o+-o+-o") (wd "+++ooo---") = wd "++++oo+-o"
      ∧ Alu.xor (wd "+-o+-o+-o") (wd "+++ooo---") = wd "oo++-ooo-"
      ∧ Alu.consensus (wd "+-o+-o+-o") (wd "+++ooo---") = wd "+oooooo-o"
      ∧ Alu.union (wd "+-o+-o+-o") (wd "+++ooo---") = wd "+o++-oo--" := by
  decide
theorem test_ripple_carry : Alu.rippleAdd (wordOf 6561) (wordOf 6561) = (wd "-oooooooo", .pos) := by decide
theorem test_multiply_wraps : (Alu.multiply (wordOf 9841) (wordOf 9841)).val = 4921 := by decide
theorem test_divide_truncates :
    (Alu.divide (wordOf (-7)) (wordOf 2)).val = -3 ∧ (Alu.modulo (wordOf 7) (wordOf (-2))).val = 1
      ∧ (Alu.modulo (wordOf (-7)) (wordOf 2)).val = -1 ∧ (Alu.modulo (wordOf 7) (wordOf 0)).val = 7 := by
  decide
theorem test_shift_counts :
    (Alu.unsignedShift (wordOf 14) (wordOf (-1))).val = 5 ∧ (Alu.unsignedShift (wordOf 1) (wordOf 9)).val = 0
      ∧ Alu.rotateShift (wd "+-o++o--+") (wordOf 9841) = wd "+o--++-o+"
      ∧ Alu.rotateShift (wd "+-o++o--+") (wordOf (-9841)) = wd "o--++-o++" := by
  decide

/-! ### Single steps (95_test_vectors.md 2.6 and the examples of the instruction rules) -/

theorem test_step_add_wraps :
    after (start 0 [(.r0, 9841), (.r1, 1)] [(0, "---oo---o")] .pos) [.r0, .r1] = some (1, [-9841, 1], .pos) := by
  decide
theorem test_step_add_same_register :
    after (start 8 [(.r0, 7)] [(8, "---oo----")]) [.r0] = some (9, [14], .zero) := by
  decide
theorem test_step_addc_carry :
    after (start 0 [(.r0, 9841), (.r1, 1)] [(0, "--+oo---o")]) [.r0, .r1] = some (1, [1, 1], .zero) := by
  decide
theorem test_step_addc_short :
    after (start 0 [(.r0, 100)] [(0, "--+o+--+-")]) [.r0] = some (1, [0], .zero) := by
  decide
theorem test_step_mul :
    after (start 0 [(.r0, 123), (.r1, -45)] [(0, "-o-oo---o")]) [.r0, .r1] = some (1, [-5535, -45], .zero) := by
  decide
theorem test_step_mul_short :
    after (start 0 [(.r0, 7)] [(0, "-o-o+--+-")]) [.r0] = some (1, [14], .zero) := by
  decide
theorem test_step_div :
    after (start 0 [(.r0, 100), (.r1, 7)] [(0, "-oooo---o")]) [.r0, .r1] = some (1, [14, 7], .zero) := by
  decide
theorem test_step_div_by_zero :
    after (start 0 [(.r0, 7)] [(0, "-ooo+--oo")]) [.r0] = some (1, [0], .zero) := by
  decide
theorem test_step_mod :
    after (start 0 [(.r0, -100), (.r1, 7)] [(0, "-o+oo---o")]) [.r0, .r1] = some (1, [-2, 7], .zero) := by
  decide
theorem test_step_mod_short :
    after (start 0 [(.r0, 7)] [(0, "-o+o+--+-")]) [.r0] = some (1, [1], .zero) := by
  decide
theorem test_step_neg :
    after (start 0 [(.r0, 5), (.r1, 4542)] [(0, "-+-oo---o")]) [.r0, .r1] = some (1, [-4542, 4542], .zero) := by
  decide
theorem test_step_neg_short :
    after (start 0 [] [(0, "-+-o+--+-")]) [.r0] = some (1, [-2], .zero) := by
  decide
theorem test_step_min :
    after (start 0 [(.r0, 4542), (.r1, 9464)] [(0, "-+ooo---o")]) [.r0, .r1] = some (1, [4280, 9464], .zero) := by
  decide
theorem test_step_max :
    after (start 0 [(.r0, 4542), (.r1, 9464)] [(0, "-++oo---o")]) [.r0, .r1] = some (1, [9726, 9464], .zero) := by
  decide
theorem test_step_con :
    after (start 0 [(.r0, 4542), (.r1, 9464)] [(0, "o--oo---o")]) [.r0, .r1] = some (1, [6558, 9464], .zero) := by
  decide
theorem test_step_any :
    after (start 0 [(.r0, 4542), (.r1, 9464)] [(0, "o-ooo---o")]) [.r0, .r1] = some (1, [7448, 9464], .zero) := by
  decide
theorem test_step_xor :
    after (start 0 [(.r0, 4542), (.r1, 9464)] [(0, "+oooo---o")]) [.r0, .r1] = some (1, [890, 9464], .zero) := by
  decide
theorem test_step_xor_same_register :
    after (start 0 [(.sp, 123)] [(0, "+oooo++++")]) [.sp] = some (1, [0], .zero) := by
  decide
theorem test_step_rsh_short :
    after (start 0 [(.r0, 4687)] [(0, "o-+o+--+-")]) [.r0] = some (1, [2819], .zero) := by
  decide
theorem test_step_rsh_register :
    after (start 0 [(.r0, 4687), (.r1, -1)] [(0, "o-+oo---o")]) [.r0, .r1] = some (1, [8123, -1], .zero) := by
  decide
theorem test_step_ush_short :
    after (start 0 [(.r0, 4687)] [(0, "oo-o+--+-")]) [.r0] = some (1, [2817], .zero) := by
  decide
theorem test_step_ush_register :
    after (start 0 [(.r0, 5), (.r1, -1)] [(0, "oo-oo---o")]) [.r0, .r1] = some (1, [2, -1], .zero) := by
  decide
theorem test_step_nop_at_the_end :
    after (start 9841 [] []) [] = some (-9841, [], .zero) := by
  decide
theorem test_step_nop_word :
    after (start 0 [] [(0, "ooo+-oooo"), (1, "--ooooooo")]) [] = some (2, [], .zero) := by
  decide
theorem test_step_mov_register :
    after (start 0 [(.r1, 77)] [(0, "oo+oo---o")]) [.r0, .r1] = some (1, [77, 77], .zero) := by
  decide
theorem test_step_mov_word_across_the_end :
    after (start 9841 [] [(9841, "oo++---oo"), (-9841, "ooo+----o")]) [.r0] = some (-9840, [123], .zero) := by
  decide
theorem test_step_cmp_less :
    after (start 0 [(.r0, -3)] [(0, "o+-o+--oo")]) [.r0] = some (1, [-3], .neg) := by
  decide
theorem test_step_cmp_full_range :
    after (start 0 [(.r0, 9841), (.r1, -9841)] [(0, "o+-oo---o")]) [.r0, .r1] = some (1, [9841, -9841], .pos) := by
  decide
theorem test_step_lod_indirect :
    after (start 0 [(.r1, -9841)] [(0, "+o-oo---o"), (-9841, "oooooo+-+")]) [.r0, .r1] = some (1, [7, -9841], .zero) := by
  decide
theorem test_step_lod_same_register :
    after (start 0 [] [(0, "+o-oo-o-o")]) [.r1] = some (1, [5802], .zero) := by
  decide
theorem test_step_jmp_label :
    after (start 5 [] [(5, "o+o+-oooo"), (6, "ooooo+-+-")]) [] = some (20, [], .zero) := by
  decide
theorem test_step_jmp_ra :
    after (start 5 [(.ra, 77)] [(5, "o+ooooo+o")]) [.ra] = some (77, [77], .zero) := by
  decide
theorem test_step_beq_taken :
    after (start 5 [] [(5, "o++o+oo-+")]) [] = some (-2, [], .zero) := by
  decide
theorem test_step_beq_not_taken :
    after (start 5 [] [(5, "o++o+oo-+")] .pos) [] = some (6, [], .pos) := by
  decide
theorem test_step_bgt_taken :
    after (start 5 [] [(5, "+--+-oooo"), (6, "ooooo+-+-")] .pos) [] = some (20, [], .pos) := by
  decide
theorem test_step_bgt_not_taken :
    after (start 5 [] [(5, "+--+-oooo"), (6, "ooooo+-+-")]) [] = some (7, [], .zero) := by
  decide
theorem test_step_blt_taken :
    after (start 5 [] [(5, "+-oo+oo-+")] .neg) [] = some (-2, [], .neg) := by
  decide
theorem test_step_blt_not_taken :
    after (start 5 [] [(5, "+-oo+oo-+")] .pos) [] = some (6, [], .pos) := by
  decide
theorem test_step_jal_label :
    after (start 3 [] [(3, "+-++-oooo"), (4, "ooooo+-+-")]) [.ra] = some (20, [5], .zero) := by
  decide
theorem test_step_jal_ra :
    after (start 3 [(.ra, 50)] [(3, "+-+oooo+o")]) [.ra] = some (50, [4], .zero) := by
  decide

theorem test_step_illegal_word :
    (transact .next (start 1 [] [(1, "--ooooooo")])).2 = .decodeError (wordOf 1) (wd "--ooooooo")
      ∧ (transact .next (start 1 [] [(1, "--ooooooo")])).1
          = (start 1 [] [(1, "--ooooooo")]).setLatch (.set (wordOf 1) (wd "--ooooooo")) := by
  decide
theorem test_step_faulted :
    transact .next (takeDecodeError (start 1 [] []) (wd "--ooooooo"))
      = (takeDecodeError (start 1 [] []) (wd "--ooooooo"), .decodeError (wordOf 1) (wd "--ooooooo")) := by
  decide
/-- 43_data_movement.md R164 with STA_OPCODE = -12: `--oo+--++` stores r0 at address 4. -/
theorem test_step_configured_store :
    (match stepWith (some .minus12) (start 0 [(.r0, 7)] [(0, "--oo+--++")]) with
      | .next t => decide ((t.mem.cell 4).val = 7 ∧ t.pc.val = 1 ∧ t.mem.wf)
      | _ => false) = true := by
  decide

/-- The same store as the host sees it: `next()` is done, where the base machine reports DecodeError. -/
theorem test_transact_configured_store :
    (transactWith (some .minus12) .next (start 0 [(.r0, 7)] [(0, "--oo+--++")])).2 = .done
      ∧ (transact .next (start 0 [(.r0, 7)] [(0, "--oo+--++")])).2 = .decodeError Word.zero (wd "--oo+--++") := by
  decide

/-! ### The host port (20_memory.md R34, 95_test_vectors.md S2) -/

theorem test_host_store_load :
    (transact (.load (.int (-9841))) (transact (.store (.int 100) (.int (-9841))) State.reset).1).2
      = .word (wd "oooo++-o+") := by
  decide
theorem test_host_store_refused :
    transact (.store (.int 1) (.int 9842)) State.reset = (State.reset, .error .rangeError) := by
  decide
/-- A cell the image does not list keeps its word (assumption log 23). -/
theorem test_load_image_keeps_unlisted_cells :
    ((start 0 [] [(1, "---------")]).loadImage [(0, wd "oo+o+--o+")]).mem
      = [(0, wd "oo+o+--o+"), (1, wd "---------")] := by
  decide
theorem test_load_image :
    (State.reset.loadImage [(0, wd "oo+o+--o+"), (1, wd "---o+--o+")]).mem
      = [(0, wd "oo+o+--o+"), (1, wd "---o+--o+")] := by
  decide

/-! ### The host's bit patterns (assumption logs 4 and 5): -9431 and, with 7 above it, 2349, as 16-bit numbers -/

theorem test_decodeTableWord :
    decodeTableWord 16 56105 = some (.addSI .r0 1) ∧ decodeTableWord 32 461101 = some (.jmpWI (wordOf 7))
      ∧ decodeTableWord 16 56788 = none := by
  decide
theorem test_withFetchWord :
    after (State.reset.withFetchWord 16 56105) [.r0] = some (1, [1], .zero)
      ∧ after (State.reset.withFetchWord 32 461101) [] = some (7, [], .zero) := by
  decide

/-! ### The assembler's syntax (95_test_vectors.md S4, S6, S7; 30_encoding.md R84) -/

/-- The image of a source text, or the error. -/
def imageOf (s : String) : Except AsmError Memory :=
  match assemble false s.toList with
  | .ok a => .ok a.image
  | .error e => .error e

theorem test_assemble_loop :
    imageOf "; count\n.top\n ADD R0, oooooooo+ ; one\nJMP .top\n"
      = .ok [(0, wd "---o+--o+"), (1, wd "o+o+-oooo")] := by
  decide
theorem test_assemble_forward_label :
    imageOf "JMP .end\nNOP\n.end\nNOP" = .ok [(0, wd "o+o+-oooo"), (1, wd "ooooooo+o")] := by
  decide
theorem test_assemble_mode_boundary :
    imageOf "MOV r0, ooooooo--\nMOV r0, oooooo-++"
      = .ok [(0, wd "oo+o+----"), (1, wd "oo++---oo"), (2, wd "oooooo-++")] := by
  decide
theorem test_assemble_alias : imageOf "LDA r1, r1" = imageOf "LOD r1, r1" ∧ imageOf "LDA r1, r1" = .ok [(0, wd "+o-oo-o-o")] := by
  decide
theorem test_assemble_errors :
    imageOf "FOO r0, r1" = .error ⟨.argumentError, .operation "FOO".toList⟩
      ∧ imageOf "MOV r9, r1" = .error ⟨.argumentError, .operand 1⟩
      ∧ imageOf "MOV r0, .x" = .error ⟨.argumentError, .operand 2⟩
      ∧ imageOf "NOP r0" = .error ⟨.argumentError, .operandList⟩
      ∧ imageOf "STA r0, r1" = .error ⟨.encodeError, .operation "STA".toList⟩
      ∧ imageOf "BEQ .nowhere" = .error ⟨.undeclaredLabelError, .label "nowhere".toList⟩ := by
  decide

/-! ### Witnesses: concrete states and operands that meet the hypotheses of the obligations, at the ends of their ranges -/

/-- A state whose latch holds the illegal word at its pc. -/
def faulted : State :=
  takeDecodeError (start 1 [(.r0, 5)] [(1, "--ooooooo")]) (wd "--ooooooo")

/-- The next state of an outcome, if it has one. -/
def nextOf : Host.Outcome State Fault Refusal → Option State
  | .next t => some t
  | _ => none

theorem nextOf_eq_some (o : Host.Outcome State Fault Refusal) (t : State) : nextOf o = some t ↔ o = .next t := by
  cases o <;> simp [nextOf]

/-- What some HostStores, loads and steps leave of the reset state. -/
def afterHost (ts : List Transaction) : State :=
  (transactAll ts State.reset).1

theorem witness_IntToWordIsExactOrRangeError :
    ((-9841 ≤ (-9841 : Int) ∧ (-9841 : Int) ≤ 9841) ∧ intToWord (-9841) = .ok (wd "---------"))
      ∧ ((-9841 ≤ (9841 : Int) ∧ (9841 : Int) ≤ 9841) ∧ intToWord 9841 = .ok (wd "+++++++++"))
      ∧ (((-9842 : Int) < -9841 ∨ 9841 < (-9842 : Int)) ∧ intToWord (-9842) = .error .rangeError)
      ∧ (((9842 : Int) < -9841 ∨ 9841 < (9842 : Int)) ∧ intToWord 9842 = .error .rangeError) := by
  decide

theorem witness_SignStringsAreReadExactly :
    (['-', 'o', '+', '-', 'o', '+', '-', 'o', '+'].length = 9
        ∧ ∀ c ∈ ['-', 'o', '+', '-', 'o', '+', '-', 'o', '+'], c = '-' ∨ c = 'o' ∨ c = '+')
      ∧ stringToWord ['-', 'o', '+', '-', 'o', '+', '-', 'o', '+'] = .ok ⟨.neg, .zero, .pos, .neg, .zero, .pos, .neg, .zero, .pos⟩ :=
  ⟨by simp, by decide⟩

/-- Eight characters. -/
theorem witness_SignStringsAreReadExactly_short :
    (¬ (['-', 'o', '+', '-', 'o', '+', '-', 'o'].length = 9
        ∧ ∀ c ∈ ['-', 'o', '+', '-', 'o', '+', '-', 'o'], c = '-' ∨ c = 'o' ∨ c = '+'))
      ∧ stringToWord ['-', 'o', '+', '-', 'o', '+', '-', 'o'] = .error .formatError :=
  ⟨by simp, by decide⟩

/-- Nine characters, one not of the alphabet. -/
theorem witness_SignStringsAreReadExactly_alphabet :
    (¬ (['-', 'o', '+', '-', 'o', '+', '-', 'o', 'O'].length = 9
        ∧ ∀ c ∈ ['-', 'o', '+', '-', 'o', '+', '-', 'o', 'O'], c = '-' ∨ c = 'o' ∨ c = '+'))
      ∧ stringToWord ['-', 'o', '+', '-', 'o', '+', '-', 'o', 'O'] = .error .formatError :=
  ⟨by simp, by decide⟩

theorem witness_CodecConversionsAreMutualInverses :
    stringToWord "+++++++++".toList = .ok (wordOf 9841)
      ∧ intToDigits (-40) 4 = .ok [.neg, .neg, .neg, .neg] ∧ intToDigits 0 0 = .ok []
      ∧ (wd "+++++++++").trits.length ≤ 9 ∧ (ext9 (wd "+++++++++").trits).val = 9841 := by
  decide

theorem witness_StoreThenLoadReturnsTheValue :
    wordOf (-9841) ≠ wordOf 9841
      ∧ (Memory.store [] (wordOf 5) (wordOf 9841)).load (wordOf 9841) = wordOf 5
      ∧ (Memory.store [] (wordOf 5) (wordOf 9841)).load (wordOf (-9841)) = Word.zero := by
  decide

theorem witness_CanonicalMemoriesWithEqualCellsAreEqual :
    Memory.wf [(-9841, wd "ooooooo++"), (9841, wd "--ooooooo")]
      ∧ ¬ Memory.wf [(-9841, wd "ooooooooo")] ∧ ¬ Memory.wf [(9842, wd "ooooooo++")]
      ∧ ¬ Memory.wf [(1, wd "ooooooo++"), (0, wd "ooooooo++")] := by
  decide

/-- Two memories built in two ways are canonical and hold the same cells, and are the same data. -/
theorem witness_canonical_memories :
    let m := Memory.store (Memory.store [] (wordOf 1) (wordOf 9841)) (wordOf 2) (wordOf (-9841))
    let n := Memory.store (Memory.store [] (wordOf 2) (wordOf (-9841))) (wordOf 1) (wordOf 9841)
    m.wf ∧ n.wf ∧ m = n := by
  decide

theorem witness_HostPortRefusesIntegersOutOfRange :
    ((9842 : Int) < -9841 ∨ 9841 < (9842 : Int))
      ∧ transact (.store (.word Word.zero) (.int 9842)) State.reset = (State.reset, .error .rangeError)
      ∧ ((-9842 : Int) < -9841 ∨ 9841 < (-9842 : Int))
      ∧ transact (.load (.int (-9842))) State.reset = (State.reset, .error .rangeError)
      ∧ transact (.load (.int (wordOf 9841).val)) faulted = (faulted, .word Word.zero) := by
  decide

theorem witness_HostStoreChangesOneCellOnly :
    wordOf 1 ≠ wordOf 9841
      ∧ (let t := (transact (.store (.word (wordOf 3)) (.word (wordOf 9841))) faulted).1
        t.mem.load (wordOf 9841) = wordOf 3 ∧ t.mem.load (wordOf 1) = wd "--ooooooo" ∧ t.latch = faulted.latch) := by
  decide

/-- Both sides of the condition, at its boundary values. -/
theorem witness_DecodeFailsExactlyOnIllegalFields :
    opcodeField (wd "--ooooooo") = -12 ∧ opcodeField (wd "+o+oooooo") = 10
      ∧ modeField (wd "ooo+ooooo") = 3 ∧ modeField (wd "oooo-oooo") = -1
      ∧ opcodeField (wd "+oo+-oooo") = 9 ∧ modeField (wd "+oo+-oooo") = 2
      ∧ opcodeField (wd "---oooooo") = -13 ∧ modeField (wd "---oooooo") = 0 := by
  decide

/-- NOP words that differ in x and y, JMP words that differ in x, WORD_IMMEDIATE words that differ in y. -/
theorem witness_IgnoredFieldsDoNotMatter :
    (opcodeField (wd "ooooo----") = 0 ∧ decode (wd "ooooo++++") Word.zero = decode (wd "ooooo----") Word.zero)
      ∧ (opcodeField (wd "o+ooo--oo") = 3 ∧ decode (wd "o+ooo++oo") Word.zero = decode (wd "o+ooo--oo") Word.zero)
      ∧ (opcodeField (wd "+-+oo--oo") = 7 ∧ decode (wd "+-+oo++oo") Word.zero = decode (wd "+-+oo--oo") Word.zero)
      ∧ (modeField (wd "---+-oo--") = 2 ∧ decode (wd "---+-oo++") Word.zero = decode (wd "---+-oo--") Word.zero)
      ∧ xField (wd "---oo++--") = xField (wd "---oo++--") ∧ yField (wd "---oo++--") = yField (wd "---oo++--") := by
  decide

theorem witness_RecordDecodeInvertsEncode :
    encodeRecord ⟨-13, .shortImmediate, -4, 4, none⟩ = .ok (wd "---o+--++", none)
      ∧ encodeRecord ⟨9, .wordImmediate, 4, 77, some (.word (wordOf 9841))⟩ = .ok (wd "+oo+-++oo", some (wordOf 9841)) := by
  decide

theorem witness_DecodeInvertsEncode :
    (Instr.addSI .r0 (-4)).wf ∧ (Instr.xorSI .sp 4).wf ∧ (Instr.jmpWI (wordOf 9841)).wf ∧ Instr.nopSI.wf
      ∧ ¬ (Instr.addSI .r0 (-5)).wf := by
  decide

theorem witness_EncodeInvertsDecodeUpToIgnoredFields :
    decode (wd "ooo+-++--") (wordOf 5) = .ok (.nopWI (wordOf 5))
      ∧ encode (.nopWI (wordOf 5)) = .ok (wd "ooo+-oooo", some (wordOf 5)) := by
  decide

theorem witness_EncodeErrorExactlyOnIllFormedRecords :
    (⟨9, .wordImmediate, -4, 5, some (.word Word.zero)⟩ : Record).wf
      ∧ ¬ (⟨10, .wordImmediate, -4, 5, some (.word Word.zero)⟩ : Record).wf
      ∧ encodeRecord ⟨10, .wordImmediate, -4, 5, some (.word Word.zero)⟩ = .error .encodeError
      ∧ encodeRecord ⟨9, .wordImmediate, -5, 5, some (.word Word.zero)⟩ = .error .encodeError := by
  decide

theorem witness_DecodedInstructionsAreWellFormed :
    decode (wd "oo+o+++++") Word.zero = .ok (.movSI .sp 4) ∧ (Instr.movSI .sp 4).wf := by
  decide

theorem witness_faulted_sound : faulted.sound :=
  ⟨by decide, by decide, by decide⟩

theorem witness_StepKeepsTheStateSound :
    let s := start 1 [] [(1, "--ooooooo")]
    s.mem.wf ∧ s.latch = .clear ∧ stepWith none s = .next (takeDecodeError s (wd "--ooooooo"))
      ∧ (match stepWith (some .minus12) s with
        | .next t => decide (t.latch = .clear ∧ t.mem.wf)
        | _ => false) = true := by
  simp only [← nextOf_eq_some]; decide

theorem witness_HostTransactionsKeepTheStateSound :
    (afterHost [.store (.int (-8748)) (.int 0), .next, .store (.int 1) (.int 9841), .load (.int 0)]).sound :=
  ⟨by decide, by decide, by decide⟩

theorem witness_StepRunsTheDecodedInstruction :
    let s := start 9841 [] [(9841, "oo++---oo"), (-9841, "ooo+----o")]
    s.latch = .clear
      ∧ decode (s.mem.load s.pc) (s.mem.load (addressPlus s.pc 1)) = .ok (.movWI .r0 (wordOf 123))
      ∧ (wordOf (-9840)).val = wrap (s.pc.val + 2) := by
  decide

/-- An illegal opcode and an illegal mode, at the boundary values, and the step on each. -/
theorem witness_IllegalWordTakesTheDecodeError :
    ∀ w ∈ ["--ooooooo", "+o+oooooo", "+++oooooo", "oooo-oooo", "ooo+ooooo"],
      (start 7 [] [(7, w)]).latch = .clear
        ∧ (start 7 [] [(7, w)]).mem.load (start 7 [] [(7, w)]).pc = wd w
        ∧ (opcodeField (wd w) = -12 ∨ 10 ≤ opcodeField (wd w) ∨ modeField (wd w) < 0 ∨ 2 < modeField (wd w))
        ∧ step (start 7 [] [(7, w)]) = .next (takeDecodeError (start 7 [] [(7, w)]) (wd w)) := by
  simp only [← nextOf_eq_some]; decide

theorem witness_FaultedStepOnlyReports :
    faulted.latch = .set (wordOf 1) (wd "--ooooooo")
      ∧ step faulted = .fault (.decodeError (wordOf 1) (wd "--ooooooo")) :=
  ⟨by decide, rfl⟩

theorem witness_OnlyResetClearsTheLatch :
    faulted.latch = .set (wordOf 1) (wd "--ooooooo")
      ∧ Transaction.reset ∉ [Transaction.store (.int 0) (.int 1), .next]
      ∧ (transactAll [.store (.int 0) (.int 1), .next] faulted).1.latch = faulted.latch
      ∧ (transactAll [.store (.int 0) (.int 1), .reset] faulted).1 = State.reset := by
  decide

theorem witness_ClearLatchStepAlwaysAnswersNext :
    State.reset.latch = .clear ∧ step State.reset = .next (State.reset.setPc (wordOf 1)) := by
  simp only [← nextOf_eq_some]; decide

/-- ADD, CMP, a short-immediate LOD and JAL as first instructions: each step answers a next state with the cells as before. -/
theorem witness_NoStepWritesMemory :
    (["---oo---o", "o+-oo---o", "+o-o+---o", "+-++-oooo"].all fun w =>
      match step (start 0 [] [(0, w)]) with
      | .next t => decide (t.mem = [(0, wd w)])
      | _ => false) = true := by
  decide

/-- MOV and JMP beside CMP (opcodes 1 and 3); the branches BEQ to BLT read the flag (4 and 6), JMP and JAL (3 and 7) do not. -/
theorem witness_CmpAloneWritesAndBranchesAloneReadTheFlag :
    opcodeOf (.movSI .r0 1) = 1 ∧ opcodeOf (.cmpSI .r0 1) = 2 ∧ opcodeOf (.jmpSI 1) = 3
      ∧ opcodeOf (.beqSI 1) = 4 ∧ opcodeOf (.bltSI 1) = 6 ∧ opcodeOf (.jalSI 1) = 7
      ∧ exec (.jmpSI 1) State.reset = .next (State.reset.setPc (wordOf 1))
      ∧ exec (.jmpSI 1) (State.reset.setCf .pos) = .next ((State.reset.setPc (wordOf 1)).setCf .pos)
      ∧ exec (.cmpSI .r0 1) (State.reset.setCf .pos) = .next (State.reset.setCf .neg)
      ∧ (let s := start 0 [] [(0, "oo+o+--o+")] .neg
        opcodeField (s.mem.load s.pc) ≠ 2 ∧ after s [.r0] = some (1, [1], .neg)) := by
  simp only [← nextOf_eq_some]; decide

theorem witness_OnlyTheDestinationRegisterChanges :
    writtenReg (.jalRR .r1) ≠ some .sp ∧ writtenReg (.jalRR .r1) = some .ra
      ∧ writtenReg (.movSI .r0 1) = some .r0 ∧ writtenReg (.cmpSI .r0 1) = none
      ∧ exec (.jalRR .r1) State.reset = .next State.reset := by
  simp only [← nextOf_eq_some]; decide

/-- MOV (1) and LOD (8) on the two sides of the control-flow opcodes. -/
theorem witness_OnlyControlFlowReplacesThePc :
    opcodeOf (.cmpSI .r0 1) = 2 ∧ opcodeOf (.lodSI .r0 1) = 8
      ∧ exec (.cmpSI .r0 1) State.reset = .next (State.reset.setCf .neg)
      ∧ exec (.lodSI .r0 1) State.reset = .next State.reset := by
  simp only [← nextOf_eq_some]; decide

theorem witness_StoredWordIsFetchedByTheNextStep :
    let s := start 9841 [] [(9841, "--ooooooo")]
    s.latch = .clear
      ∧ decode (wd "oo+o+--o+") ((s.mem.store (wd "oo+o+--o+") s.pc).load (addressPlus s.pc 1)) = .ok (.movSI .r0 1)
      ∧ after (transact (.store (.word (wd "oo+o+--o+")) (.word s.pc)) s).1 [.r0] = some (-9841, [1], .zero) := by
  decide

/-- Each free slot, in each mode. -/
theorem witness_ConfiguredStoreWritesOneCell :
    ([(Config.FreeOpcode.minus12, "--ooo--oo"), (.plus10, "+o+o+--oo"), (.plus11, "++-+---oo"), (.plus12, "++ooo--oo"),
        (.plus13, "+++oo--oo")].all fun c =>
      let s := start 9841 [] [(9841, c.2)]
      decide (s.latch = .clear ∧ opcodeField (s.mem.load s.pc) = c.1.code)
        && (Mode.ofCode (modeField (s.mem.load s.pc))).isSome) = true := by
  decide

/-- Another opcode, and the slot's opcode with an illegal mode. -/
theorem witness_ConfiguredStoreTouchesNoOtherOpcode :
    opcodeField ((start 0 [] [(0, "---ooo+--")]).mem.load Word.zero) ≠ Config.FreeOpcode.code .minus12
      ∧ (let s := start 0 [] [(0, "--o+ooooo")]
        opcodeField (s.mem.load s.pc) = Config.FreeOpcode.code .minus12
          ∧ Mode.ofCode (modeField (s.mem.load s.pc)) = none ∧ nextOf (stepWith (some .minus12) s) = nextOf (step s)) := by
  decide

/-- Positions 0 and 8, the ends of a word. -/
theorem witness_MinAndMaxAreThePerTritLattice :
    (Alu.min (wd "+ooooooo-") (wd "-ooooooo+")).trit 0 = .neg ∧ (Alu.min (wd "+ooooooo-") (wd "-ooooooo+")).trit 8 = .neg
      ∧ (Alu.max (wd "+ooooooo-") (wd "-ooooooo+")).trit 0 = .pos ∧ (Alu.max (wd "+ooooooo-") (wd "-ooooooo+")).trit 8 = .pos := by
  decide

theorem witness_QuotientAndRemainderMakeTheDividend :
    (wordOf (-1)).val ≠ 0 ∧ (Alu.modulo (wordOf (-9841)) (wordOf (-1))).val = 0
      ∧ (Alu.divide (wordOf (-9841)) (wordOf (-1))).val = 9841
      ∧ (wordOf 9841).val ≠ 0 ∧ (Alu.modulo (wordOf (-9840)) (wordOf 9841)).val = -9840 := by
  decide

/-- Counts 0, 8 and -8, and the first counts that leave nothing. -/
theorem witness_ShiftScalesByPowersOfThree :
    ((wordOf 0).val = ((0 : Nat) : Int) ∧ (Alu.unsignedShift (wordOf 9841) (wordOf 0)).val = wrap (9841 * 3 ^ 0))
      ∧ ((wordOf 8).val = ((8 : Nat) : Int) ∧ (Alu.unsignedShift (wordOf 2) (wordOf 8)).val = wrap (2 * 3 ^ 8))
      ∧ ((wordOf (-8)).val = -((8 : Nat) : Int) ∧ (Alu.unsignedShift (wordOf 9841) (wordOf (-8))).val = 1)
      ∧ ((wordOf (-9)).val ≤ -9 ∧ Alu.unsignedShift (wordOf 9841) (wordOf (-9)) = Word.zero)
      ∧ (9 ≤ (wordOf 9).val ∧ Alu.unsignedShift (wordOf 9841) (wordOf 9) = Word.zero) := by
  decide

theorem witness_RotationsComposeByAddingCounts :
    ((wordOf (-9841)).val - ((wordOf 9841).val + (wordOf 2).val)) % 9 ≠ 0
      ∧ ((wordOf (-9839)).val - ((wordOf (-9841)).val + (wordOf 2).val)) % 9 = 0
      ∧ Alu.rotateShift (Alu.rotateShift (wd "+-o++o--+") (wordOf (-9841))) (wordOf 2)
          = Alu.rotateShift (wd "+-o++o--+") (wordOf (-9839))
      ∧ (wordOf 9).val % 9 = 0 ∧ Alu.rotateShift (wd "+-o++o--+") (wordOf 9) = wd "+-o++o--+" := by
  decide

/-- Rotations and shifts by 4 and -4, the ends of a short immediate, with the end trits of the word set. -/
theorem witness_RshRotatesTheTrits :
    exec (.rshSI .r0 (digitsToInt [.pos, .pos])) (State.reset.setReg .r0 (wd "+ooooooo-"))
      = .next (State.reset.setReg .r0 (wd "oooo-+ooo")) := by
  simp only [← nextOf_eq_some]; decide

theorem witness_UshShiftsTheTrits :
    exec (.ushSI .r0 (digitsToInt [.neg, .neg])) (State.reset.setReg .r0 (wd "+ooooooo-"))
      = .next (State.reset.setReg .r0 (wd "oooo+oooo")) := by
  simp only [← nextOf_eq_some]; decide

/-- Positions 0 and 8 of the trit-by-trit instructions, with a short immediate at an end of its range. -/
theorem witness_trit_by_trit_instructions :
    ∀ c ∈ [(Instr.minSI .r0 4, "oooooooo+"), (.maxSI .r0 4, "+oooooo++"), (.conSI .r0 4, "oooooooo+"),
        (.anySI .r0 4, "+oooooo++"), (.xorSI .r0 4, "+oooooo+o")],
      exec c.1 (State.reset.setReg .r0 (wd "+ooooooo+")) = .next (State.reset.setReg .r0 (wd c.2)) := by
  simp only [← nextOf_eq_some]; decide

/-- The three outcomes of a comparison, the CF that a later state with another pc still holds, and the branch taken there. -/
theorem witness_ComparedValuesDecideTheBranch :
    ([((9841 : Int), (-9841 : Int), Trit.pos, Instr.bgtWI (wordOf (-9841))), (-9841, 9841, .neg, .bltSI (-4)),
        (9841, 9841, .zero, .beqRR .r0)].all fun c =>
      match exec (.cmpRR .r0 .sp) (start 9841 [(.r0, c.1), (.sp, c.2.1)] []) with
      | .next t =>
        let u := t.setPc (wordOf 5)
        match exec c.2.2.2 u with
        | .next v => decide (u.cf = t.cf ∧ u.cf = c.2.2.1 ∧ v.pc ≠ u.pc)
        | _ => false
      | _ => false) = true := by
  decide

/-- Immediates 4 and 5 at a cursor of 7: one word and two. -/
theorem witness_PassesAgreeOnTheLength :
    pass1Line false ⟨7, [], [], []⟩ (.instr "MOV".toList ["r0".toList, "ooooooo++".toList])
        = .ok ⟨8, [], [], [(7, ⟨.mov, -4, some (.imm (wordOf 4))⟩)]⟩
      ∧ toRecord [] ⟨.mov, -4, some (.imm (wordOf 4))⟩ = .ok ⟨1, .shortImmediate, -4, 4, none⟩
      ∧ encodeRecord ⟨1, .shortImmediate, -4, 4, none⟩ = .ok (wd "oo+o+--++", none)
      ∧ pass1Line false ⟨7, [], [], []⟩ (.instr "MOV".toList ["r0".toList, "oooooo+--".toList])
        = .ok ⟨9, [], [], [(7, ⟨.mov, -4, some (.imm (wordOf 5))⟩)]⟩
      ∧ toRecord [] ⟨.mov, -4, some (.imm (wordOf 5))⟩ = .ok ⟨1, .wordImmediate, -4, 0, some (.word (wordOf 5))⟩
      ∧ encodeRecord ⟨1, .wordImmediate, -4, 0, some (.word (wordOf 5))⟩ = .ok (wd "oo++---oo", some (wordOf 5)) := by
  decide

end Sys2Proof.Tests
end

section
/-! PROOFS of the statements of 10_state.md: the memory's canonical form, what an instruction may change of the state,
and the state after reset. -/

namespace Sys2Proof

theorem Word.val_zero : Word.zero.val = 0 := rfl

theorem Opcode.eq_cmp_of_code {o : Opcode} (h : o.code = 2) : o = .cmp := by
  cases o with
  | cmp => rfl
  | _ => exact absurd h (by decide)

end Sys2Proof

namespace Sys2Proof.Machine

/-! ### Canonical memories -/

/-- A cell of the address space is read by the word of its address (20_memory.md R30, R31). -/
theorem Memory.load_wordOf (m : Memory) {a : Int} (h1 : -9841 ≤ a) (h2 : a ≤ 9841) : m.load (wordOf a) = m.cell a := by
  rw [Memory.load, val_wordOf_of_range h1 h2]

/-- A canonical memory lists every cell of a canonical memory that reads alike: the listed address is one a word has. -/
theorem Memory.mem_of_load_eq {m n : Memory} (hm : m.wf) (hn : n.wf) (h : ∀ a, m.load a = n.load a)
    {c : Int × Word} (hc : c ∈ m) : c ∈ n := by
  obtain ⟨a, v⟩ := c
  obtain ⟨hlow, hhigh, -⟩ := hm.2 _ hc
  obtain ⟨hv, hcell⟩ := (Memory.mem_iff_cell hm a v).mp hc
  have hload := h (wordOf a)
  rw [Memory.load_wordOf m hlow hhigh, Memory.load_wordOf n hlow hhigh] at hload
  exact (Memory.mem_iff_cell hn a v).mpr ⟨hv, hload ▸ hcell⟩

/-- Settles O7: each memory lists the cells of the other, and their strict order leaves one list. -/
theorem canonicalMemoriesWithEqualCellsAreEqual : Obligations.CanonicalMemoriesWithEqualCellsAreEqual := by
  intro m n hm hn h
  have antisymm : Std.Antisymm fun c d : Int × Word => c.1 < d.1 := ⟨fun _ _ hcd hdc => absurd hdc hcd.asymm⟩
  have irrefl : Std.Irrefl fun c d : Int × Word => c.1 < d.1 := ⟨fun c => lt_irrefl c.1⟩
  exact List.Subset.antisymm_of_pairwise hm.1 hn.1
    (fun _ => Memory.mem_of_load_eq hm hn h)
    (fun _ => Memory.mem_of_load_eq hn hm fun a => (h a).symm)

/-! ### The effect of an instruction, by opcode and operand -/

/-- The state an opcode answers, given its x register and its src operand: the meanings of the three addressing modes of
a mnemonic differ in the operand alone (42_step_cycle.md R145, R148). -/
def opcodeEffect (o : Opcode) (x : Reg) (a : Operand) (s : State) : State :=
  match o with
  | .add => aluInto Alu.add x a s
  | .addc => aluInto Alu.addWithCarry x a s
  | .mul => aluInto Alu.multiply x a s
  | .div => aluInto Alu.divide x a s
  | .mod => aluInto Alu.modulo x a s
  | .neg => aluInto Alu.negate x a s
  | .min => aluInto Alu.min x a s
  | .max => aluInto Alu.max x a s
  | .con => aluInto Alu.consensus x a s
  | .any => aluInto Alu.union x a s
  | .rsh => aluInto Alu.rotateShift x a s
  | .ush => aluInto Alu.unsignedShift x a s
  | .xor => aluInto Alu.xor x a s
  | .nop => noEffect s
  | .mov => moveInto x a s
  | .lod => loadInto x a s
  | .cmp => compareWith x a s
  | .jmp => jumpTo a s
  | .beq => branchIf s.flagEqual a s
  | .bgt => branchIf s.flagGreater a s
  | .blt => branchIf s.flagLess a s
  | .jal => jumpAndLink a s

/-- `exec` of the instruction of some fields is the effect of its opcode on the operand of its mode. -/
theorem exec_ofFields (o : Opcode) (m : Mode) (x y : Int) (z : Word) (s : State) :
    exec (Instr.ofFields o m x y z) s = .next (opcodeEffect o (Reg.ofSelector x) (operandOf m y z) s) := by
  cases o <;> cases m <;> rfl

theorem opcodeOf_ofFields (o : Opcode) (m : Mode) (x y : Int) (z : Word) :
    opcodeOf (Instr.ofFields o m x y z) = o.code := by
  cases o <;> cases m <;> rfl

/-- Every instruction has an opcode, an x register and an operand by which it acts, on every state alike. -/
theorem exec_eq_opcodeEffect (i : Instr) :
    ∃ o x a, opcodeOf i = o.code ∧ ∀ s, exec i s = .next (opcodeEffect o x a s) := by
  obtain ⟨o, -, hi⟩ := Laws.FieldsMakeTheInstruction.all i
  rw [← hi]
  exact ⟨o, _, _, opcodeOf_ofFields .., fun _ => exec_ofFields ..⟩

/-- What decode answers has the opcode of the word. -/
theorem opcodeOf_of_decode {w z : Word} {i : Instr} (h : decode w z = .ok i) : opcodeOf i = opcodeField w := by
  rcases decode1_cases w with ⟨o, m, ho, -, hd⟩ | ⟨-, hd⟩
  · simp only [decode, hd, Except.ok.injEq] at h
    rw [← h, opcodeOf_ofFields, Opcode.code_of_ofCode ho]
  · simp [decode, hd] at h

/-! ### The comparison flag as an input -/

@[simp] theorem State.src_setCf (s : State) (c : Trit) (a : Operand) : (s.setCf c).src a = s.src a := by
  cases a <;> rfl

theorem State.setCf_setCf (s : State) (c d : Trit) : (s.setCf c).setCf d = s.setCf d := rfl

theorem aluInto_setCf (f : Word → Word → Word) (x : Reg) (a : Operand) (s : State) (c : Trit) :
    aluInto f x a (s.setCf c) = (aluInto f x a s).setCf c := by
  rw [aluInto, State.src_setCf]; rfl

theorem moveInto_setCf (x : Reg) (a : Operand) (s : State) (c : Trit) :
    moveInto x a (s.setCf c) = (moveInto x a s).setCf c := by
  rw [moveInto, State.src_setCf]; rfl

theorem loadInto_setCf (x : Reg) (a : Operand) (s : State) (c : Trit) :
    loadInto x a (s.setCf c) = (loadInto x a s).setCf c := by
  rw [loadInto, State.src_setCf]; rfl

theorem jumpTo_setCf (a : Operand) (s : State) (c : Trit) : jumpTo a (s.setCf c) = (jumpTo a s).setCf c := by
  rw [jumpTo, State.src_setCf]; rfl

theorem jumpAndLink_setCf (a : Operand) (s : State) (c : Trit) :
    jumpAndLink a (s.setCf c) = (jumpAndLink a s).setCf c := by
  rw [jumpAndLink, State.src_setCf]; rfl

/-- CMP overwrites CF without reading it. -/
theorem compareWith_setCf (x : Reg) (a : Operand) (s : State) (c : Trit) :
    compareWith x a (s.setCf c) = compareWith x a s := by
  rw [compareWith, State.src_setCf, State.setCf_setCf]; rfl

/-- An effect other than that of CMP and the three branches takes CF along untouched (10_state.md R18). -/
theorem opcodeEffect_setCf {o : Opcode} (hcmp : o.code ≠ 2) (hbranch : o.code < 4 ∨ 6 < o.code)
    (x : Reg) (a : Operand) (s : State) (c : Trit) :
    opcodeEffect o x a (s.setCf c) = (opcodeEffect o x a s).setCf c := by
  cases o with
  | add | addc | mul | div | mod | neg | min | max | con | any | rsh | ush | xor => exact aluInto_setCf ..
  | nop => rfl
  | mov => exact moveInto_setCf ..
  | lod => exact loadInto_setCf ..
  | jmp => exact jumpTo_setCf ..
  | jal => exact jumpAndLink_setCf ..
  | cmp => exact absurd rfl hcmp
  | beq | bgt | blt => exact absurd hbranch (by decide)

/-- An instruction other than the three branches answers the same state whatever CF holds, but for that CF where it is not
CMP. -/
theorem exec_setCf (i : Instr) (s : State) (c : Trit) (hbranch : opcodeOf i < 4 ∨ 6 < opcodeOf i) :
    ∃ t, exec i s = .next t ∧ exec i (s.setCf c) = .next (if opcodeOf i = 2 then t else t.setCf c) := by
  obtain ⟨o, x, a, ho, hexec⟩ := exec_eq_opcodeEffect i
  rw [ho] at hbranch ⊢
  refine ⟨_, hexec s, ?_⟩
  rw [hexec]
  by_cases hcmp : o.code = 2
  · obtain rfl := Opcode.eq_cmp_of_code hcmp
    rw [if_pos hcmp]
    exact congrArg _ (compareWith_setCf x a s c)
  · rw [if_neg hcmp, opcodeEffect_setCf hcmp hbranch]

/-! ### What an instruction leaves unchanged -/

/-- What exec answers differs from its start state by one of the five effects. -/
theorem effect_of_exec {i : Instr} {s t : State} (h : exec i s = .next t) : ExecEffect i s t := by
  obtain ⟨u, hu, heffect⟩ := exec_cases i s
  cases hu.symm.trans h
  exact heffect

namespace ExecEffect

variable {i : Instr} {s t : State}

theorem cf_eq (h : ExecEffect i s t) (hcmp : opcodeOf i ≠ 2) : t.cf = s.cf := by
  cases h with
  | writesCf c h => exact absurd h hcmp
  | nothing | writesReg | writesPc | links => rfl

theorem reg_eq (h : ExecEffect i s t) {r : Reg} (hr : writtenReg i ≠ some r) : t.reg r = s.reg r := by
  have other {x : Reg} (hx : writtenReg i = some x) : r ≠ x := fun e => hr (e ▸ hx)
  cases h with
  | writesReg x v hx => exact State.reg_setReg_other s x r v (other hx)
  | links v _ hx => exact State.reg_setReg_other s .ra r s.pc (other hx)
  | nothing | writesCf | writesPc => rfl

theorem pc_eq (h : ExecEffect i s t) (hflow : opcodeOf i < 3 ∨ 7 < opcodeOf i) : t.pc = s.pc := by
  cases h with
  | writesPc v h => omega
  | links v h => omega
  | nothing | writesReg | writesCf => rfl

theorem latch_eq (h : ExecEffect i s t) : t.latch = s.latch := by
  cases h <;> rfl

theorem mem_eq (h : ExecEffect i s t) : t.mem = s.mem := by
  cases h <;> rfl

end ExecEffect

/-- A step writes CF only where the word at the pc has the opcode of CMP. -/
theorem step_cf_eq {s t : State} (h : step s = .next t) (hcmp : opcodeField (s.mem.load s.pc) ≠ 2) : t.cf = s.cf := by
  rcases step_cases s with ⟨a, w, -, hstep⟩ | ⟨-, -, hstep⟩ | ⟨-, i, hdecode, hstep⟩
  · cases hstep.symm.trans h
  · cases hstep.symm.trans h
    rfl
  · have heffect := effect_of_exec (hstep.symm.trans h)
    rw [heffect.cf_eq (opcodeOf_of_decode hdecode ▸ hcmp), State.cf_advancePc]

/-- Settles O30: of the five effects one writes CF, and the effects of the opcodes but the branches commute with setting
CF. -/
theorem cmpAloneWritesAndBranchesAloneReadTheFlag : Obligations.CmpAloneWritesAndBranchesAloneReadTheFlag :=
  ⟨fun _ _ _ hcmp h => (effect_of_exec h).cf_eq hcmp, exec_setCf, fun _ _ => step_cf_eq⟩

/-- Settles O31, from the effects an instruction can have. -/
theorem onlyTheDestinationRegisterChanges : Obligations.OnlyTheDestinationRegisterChanges :=
  fun _ _ _ _ h hr => (effect_of_exec h).reg_eq hr

/-- Settles O32, from the effects an instruction can have. -/
theorem onlyControlFlowReplacesThePc : Obligations.OnlyControlFlowReplacesThePc := by
  intro i s t h
  have heffect := effect_of_exec h
  exact ⟨heffect.pc_eq, heffect.latch_eq, fun a => by rw [heffect.mem_eq]⟩

/-! ### Reset -/

theorem State.reg_reset (r : Reg) : State.reset.reg r = Word.zero := by
  cases r <;> rfl

theorem State.load_reset (a : Word) : State.reset.mem.load a = Word.zero := rfl

/-- Settles O19: every register, the pc and every cell hold the zero word. -/
theorem resetZeroesRegistersPcAndMemory : Obligations.ResetZeroesRegistersPcAndMemory :=
  ⟨fun r => by rw [State.reg_reset, Word.val_zero], Word.val_zero, fun a => by rw [State.load_reset, Word.val_zero]⟩

end Sys2Proof.Machine
end

section
/-! PROOFS of the statements of 20_memory.md: load after store, the integers the host port refuses, and the step after a
store at the pc. -/

namespace Sys2Proof.Machine

/-! ### Load after store -/

@[simp] theorem Memory.load_store_same (m : Memory) (v a : Word) : (m.store v a).load a = v := by
  rw [Memory.load, Memory.store, Memory.cell_setCell, if_pos rfl]

/-- Different addresses have different values (20_memory.md R30), so a store misses the cell of the other. -/
@[simp] theorem Memory.load_store_other (m : Memory) (v : Word) {a b : Word} (h : b ≠ a) :
    (m.store v a).load b = m.load b := by
  have hval : b.val ≠ a.val := fun e => h (Word.val_injective e)
  rw [Memory.load, Memory.store, Memory.cell_setCell, if_neg hval, Memory.load]

/-- Settles O6: the store writes the cell of its address and no other. -/
theorem storeThenLoadReturnsTheValue : Obligations.StoreThenLoadReturnsTheValue :=
  fun m v a => ⟨m.load_store_same v a, fun _ => m.load_store_other v⟩

/-! ### The conversion at the host port -/

/-- An integer in range is converted to the word of its value. -/
theorem PortArg.toWord_int_val (a : Word) : (PortArg.int a.val).toWord = (PortArg.word a).toWord := by
  rw [PortArg.toWord, PortArg.toWord, intToWord_of_range a.val_range.1 a.val_range.2, wordOf_val]

theorem PortArg.toWord_int_of_not_range {n : Int} (h : n < -9841 ∨ 9841 < n) :
    (PortArg.int n).toWord = .error .rangeError :=
  intToWord_of_not_range h

/-- The conversion has one way to fail (20_memory.md R34). -/
theorem PortArg.toWord_cases (p : PortArg) : (∃ w, p.toWord = .ok w) ∨ p.toWord = .error .rangeError := by
  cases p with
  | word w => exact .inl ⟨w, rfl⟩
  | int n =>
    by_cases h : n < -9841 ∨ 9841 < n
    · exact .inr (PortArg.toWord_int_of_not_range h)
    · exact .inl ⟨_, intToWord_of_range (by omega) (by omega)⟩

/-! ### HostLoad and HostStore by their converted arguments -/

section HostPortArguments

variable (s : State)

theorem transact_load_of_refused {p : PortArg} (h : p.toWord = .error .rangeError) :
    transact (.load p) s = (s, .error .rangeError) := by
  simp only [transact, transactWith, hostLoad, h]

/-- A store with a refused value is refused before its address is looked at. -/
theorem transact_store_of_refused_value {v : PortArg} (h : v.toWord = .error .rangeError) (a : PortArg) :
    transact (.store v a) s = (s, .error .rangeError) := by
  simp only [transact, transactWith, hostStore, h]

/-- With a refused address the value, converted first, is a word or refused with the same error. -/
theorem transact_store_of_refused_address {a : PortArg} (h : a.toWord = .error .rangeError) (v : PortArg) :
    transact (.store v a) s = (s, .error .rangeError) := by
  rcases v.toWord_cases with ⟨w, hv⟩ | hv
  · simp only [transact, transactWith, hostStore, hv, h]
  · exact transact_store_of_refused_value s hv a

theorem transact_load_congr {p q : PortArg} (h : p.toWord = q.toWord) :
    transact (.load p) s = transact (.load q) s := by
  simp only [transact, transactWith, hostLoad, h]

theorem transact_store_congr {v u a b : PortArg} (hv : v.toWord = u.toWord) (ha : a.toWord = b.toWord) :
    transact (.store v a) s = transact (.store u b) s := by
  simp only [transact, transactWith, hostStore, hv, ha]

theorem transact_store_word (v a : Word) :
    transact (.store (.word v) (.word a)) s = (s.setMem (s.mem.store v a), .done) :=
  rfl

end HostPortArguments

/-- Settles O8: a transaction sees its arguments through their conversion alone, and that refuses exactly the integers out
of range. -/
theorem hostPortRefusesIntegersOutOfRange : Obligations.HostPortRefusesIntegersOutOfRange := by
  intro s n arg a
  have hval := PortArg.toWord_int_val a
  refine ⟨fun hn => ?_, transact_load_congr s hval, transact_store_congr s rfl hval, transact_store_congr s hval rfl⟩
  have hrefused := PortArg.toWord_int_of_not_range hn
  exact ⟨transact_load_of_refused s hrefused, transact_store_of_refused_address s hrefused arg,
    transact_store_of_refused_value s hrefused arg⟩

/-! ### The step after a store at the pc -/

/-- The one case of `step_cases` left where the latch is clear and the words at the pc decode. -/
theorem step_of_decode {s : State} {i : Instr} (hlatch : s.latch = .clear)
    (hdecode : decode s.fetchWord s.secondWord = .ok i) :
    step s = exec i (s.advancePc i.length) := by
  rcases step_cases s with ⟨a, w, hset, -⟩ | ⟨-, hillegal, -⟩ | ⟨-, j, hj, hstep⟩
  · cases hset.symm.trans hlatch
  · cases (decode_of_decode1_error hillegal).symm.trans hdecode
  · cases hj.symm.trans hdecode
    exact hstep

/-- A word stored at the pc is fetched: the model keeps no instruction apart from memory (20_memory.md R44). -/
theorem State.fetchWord_store_pc (s : State) (w : Word) : (s.setMem (s.mem.store w s.pc)).fetchWord = w :=
  Memory.load_store_same s.mem w s.pc

/-- Settles O33: the step fetches the stored word, and the store has written one cell. -/
theorem storedWordIsFetchedByTheNextStep : Obligations.StoredWordIsFetchedByTheNextStep := by
  intro s w i hlatch hdecode
  have hfetched : decode (s.setMem (s.mem.store w s.pc)).fetchWord (s.setMem (s.mem.store w s.pc)).secondWord = .ok i := by
    rw [State.fetchWord_store_pc]
    exact hdecode
  exact ⟨s.setMem (s.mem.store w s.pc), transact_store_word s w s.pc, step_of_decode hlatch hfetched,
    rfl, rfl, rfl, rfl, fun _ => Memory.load_store_other s.mem w⟩

end Sys2Proof.Machine
end

section
/-! PROOFS of the statements of 30_encoding.md: the fields of a word, what decode and encode answer and how they undo each
other, and the modes and lengths the assembler chooses. -/

namespace Sys2Proof

/-! ### The fields of a word -/

/-- Settles O10: each field is a sum of the trits of its place. -/
theorem fieldsSumToTheWordValue : Obligations.FieldsSumToTheWordValue := by
  intro w
  have hval : w.val = opcodeField w * 729 + modeField w * 81 + xField w * 9 + yField w := by
    rw [opcodeField_eq, modeField_eq, xField_eq, yField_eq, Word.val]
    ring
  exact ⟨hval, opcodeField_range w, modeField_range w, xField_range w, yField_range w⟩

/-! ### What decode answers -/

theorem Opcode.code_injective {o o' : Opcode} (h : o.code = o'.code) : o = o' := by
  have hsome := Opcode.ofCode_code o
  rw [h, Opcode.ofCode_code] at hsome
  exact (Option.some.inj hsome).symm

theorem Mode.code_eq_two_iff (m : Mode) : m.code = 2 ↔ m = .wordImmediate := by
  cases m <;> decide

theorem decode1_of_codes {w : Word} {o : Opcode} {m : Mode} (ho : opcodeField w = o.code) (hm : modeField w = m.code) :
    decode1 w = .ok ⟨o, m, xField w, yField w⟩ := by
  rw [decode1, ho, hm, Opcode.ofCode_code, Mode.ofCode_code]

theorem decode_of_codes {w : Word} {o : Opcode} {m : Mode} (ho : opcodeField w = o.code) (hm : modeField w = m.code)
    (z : Word) : decode w z = .ok (Instr.ofFields o m (xField w) (yField w) z) := by
  rw [decode, decode1_of_codes ho hm]

theorem decodeRecord_of_codes {w : Word} {o : Opcode} {m : Mode} (ho : opcodeField w = o.code)
    (hm : modeField w = m.code) (z : Word) :
    decodeRecord w z = .ok ⟨o.code, m, xField w, yField w, if m = .wordImmediate then some (.word z) else none⟩ := by
  rw [decodeRecord, decode1_of_codes ho hm]

/-- What decode can do: the fields of a legal word make its instruction, any other word is a DecodeError, each for every
second word. -/
theorem decode_cases (w : Word) :
    (∃ (o : Opcode) (m : Mode), opcodeField w = o.code ∧ modeField w = m.code
        ∧ ∀ z, decode w z = .ok (Instr.ofFields o m (xField w) (yField w) z))
      ∨ (((opcodeField w = -12 ∨ 10 ≤ opcodeField w) ∨ (modeField w < 0 ∨ 2 < modeField w))
        ∧ ∀ z, decode w z = .error .decodeError) := by
  rcases decode1_cases w with ⟨o, m, ho, hm, -⟩ | ⟨hnone, herror⟩
  · have hop := (Opcode.code_of_ofCode ho).symm
    have hmode := (Mode.code_of_ofCode hm).symm
    exact .inl ⟨o, m, hop, hmode, decode_of_codes hop hmode⟩
  · rw [Opcode.ofCode_eq_none_iff (opcodeField_range w), Mode.ofCode_eq_none_iff] at hnone
    exact .inr ⟨hnone, fun _ => Machine.decode_of_decode1_error herror⟩

theorem fields_of_decode {w z : Word} {i : Instr} (h : decode w z = .ok i) :
    ∃ (o : Opcode) (m : Mode), opcodeField w = o.code ∧ modeField w = m.code
      ∧ i = Instr.ofFields o m (xField w) (yField w) z := by
  rcases decode_cases w with ⟨o, m, ho, hm, hok⟩ | ⟨-, herror⟩
  · exact ⟨o, m, ho, hm, Except.ok.inj (h.symm.trans (hok z))⟩
  · cases (herror z).symm.trans h

/-- No opcode and no mode has an illegal code (30_encoding.md R55, R56). -/
theorem codes_legal (o : Opcode) (m : Mode) : ¬ ((o.code = -12 ∨ 10 ≤ o.code) ∨ (m.code < 0 ∨ 2 < m.code)) := by
  have ho : ¬ (o.code = -12 ∨ 10 ≤ o.code) := by cases o <;> decide
  have hm : ¬ (m.code < 0 ∨ 2 < m.code) := by cases m <;> decide
  exact not_or.mpr ⟨ho, hm⟩

theorem Instr.mode_ofFields (o : Opcode) (m : Mode) (x y : Int) (z : Word) : (Instr.ofFields o m x y z).mode = m := by
  cases o <;> cases m <;> rfl

/-- Settles O11: the codes of opcodes and modes are the legal values. -/
theorem decodeFailsExactlyOnIllegalFields : Obligations.DecodeFailsExactlyOnIllegalFields := by
  intro w z
  rcases decode_cases w with ⟨o, m, ho, hm, hok⟩ | ⟨hillegal, herror⟩
  · have hlegal : ¬ ((opcodeField w = -12 ∨ 10 ≤ opcodeField w) ∨ (modeField w < 0 ∨ 2 < modeField w)) := by
      rw [ho, hm]
      exact codes_legal o m
    rw [if_neg hlegal, ho, hm]
    exact ⟨_, hok z, Machine.opcodeOf_ofFields .., congrArg Mode.code (Instr.mode_ofFields ..)⟩
  · rw [if_pos hillegal]
    exact herror z

/-- Settles O18: the fields of each word have the codes of its opcode and mode. -/
theorem workedWordsDecode : Obligations.WorkedWordsDecode :=
  fun z =>
    ⟨decode_of_codes (o := .nop) (m := .registerRegister) rfl rfl z,
      decode_of_codes (o := .mov) (m := .shortImmediate) rfl rfl z,
      decode_of_codes (o := .add) (m := .registerRegister) rfl rfl z,
      decode_of_codes (o := .cmp) (m := .registerRegister) rfl rfl z,
      decode_of_codes (o := .jmp) (m := .wordImmediate) rfl rfl z,
      decode_of_codes (o := .lod) (m := .wordImmediate) rfl rfl z,
      decode_of_codes (o := .ush) (m := .shortImmediate) rfl rfl z⟩

/-! ### Ignored fields (30_encoding.md R62) -/

/-- NOP and the control-flow opcodes use no x field. -/
abbrev Opcode.ignoresX (o : Opcode) : Prop :=
  o.code = 0 ∨ (3 ≤ o.code ∧ o.code ≤ 7)

/-- NOP and WORD_IMMEDIATE use no y field. -/
abbrev Opcode.ignoresY (o : Opcode) (m : Mode) : Prop :=
  o.code = 0 ∨ m = .wordImmediate

theorem Instr.ofFields_of_ignoresX {o : Opcode} (h : o.ignoresX) (m : Mode) (x x' y : Int) (z : Word) :
    Instr.ofFields o m x y z = Instr.ofFields o m x' y z := by
  cases o with
  | nop | jmp | beq | bgt | blt | jal => cases m <;> rfl
  | add | addc | mul | div | mod | neg | min | max | con | any | rsh | ush | mov | cmp | lod | xor =>
    exact absurd h (by decide)

theorem Instr.ofFields_of_ignoresY {o : Opcode} {m : Mode} (h : o.ignoresY m) (x y y' : Int) (z : Word) :
    Instr.ofFields o m x y z = Instr.ofFields o m x y' z := by
  rcases h with hnop | rfl
  · obtain rfl : o = .nop := Opcode.code_injective hnop
    cases m <;> rfl
  · cases o <;> rfl

theorem Instr.ofFields_of_oneWord {m : Mode} (h : m ≠ .wordImmediate) (o : Opcode) (x y : Int) (z z' : Word) :
    Instr.ofFields o m x y z = Instr.ofFields o m x y z' := by
  cases m with
  | registerRegister | shortImmediate => cases o <;> rfl
  | wordImmediate => exact absurd rfl h

/-- An instruction is determined by the fields its opcode and mode use. -/
theorem Instr.ofFields_congr {o : Opcode} {m : Mode} {x x' y y' : Int} {z z' : Word} (hx : o.ignoresX ∨ x = x')
    (hy : o.ignoresY m ∨ y = y') (hz : m = .wordImmediate → z = z') :
    Instr.ofFields o m x y z = Instr.ofFields o m x' y' z' :=
  calc Instr.ofFields o m x y z
    _ = Instr.ofFields o m x' y z := hx.elim (fun h => ofFields_of_ignoresX h m x x' y z) (fun h => h ▸ rfl)
    _ = Instr.ofFields o m x' y' z := hy.elim (fun h => ofFields_of_ignoresY h x' y y' z) (fun h => h ▸ rfl)
    _ = Instr.ofFields o m x' y' z' :=
      if h : m = .wordImmediate then hz h ▸ rfl else ofFields_of_oneWord h o x' y' z z'

/-- Settles O12: both words are illegal alike, or their fields make one instruction. -/
theorem ignoredFieldsDoNotMatter : Obligations.IgnoredFieldsDoNotMatter := by
  intro w v z hop hmode hx hy
  rcases decode_cases w with ⟨o, m, ho, hm, hok⟩ | ⟨hillegal, herror⟩
  · rw [ho, ← or_assoc] at hx
    rw [ho, hm, m.code_eq_two_iff, ← or_assoc] at hy
    rw [hok, decode_of_codes (hop.trans ho) (hmode.trans hm)]
    exact congrArg _ (Instr.ofFields_congr hx hy fun _ => rfl)
  · rcases decode_cases v with ⟨o, m, ho, hm, -⟩ | ⟨-, herror'⟩
    · rw [← hop, ← hmode, ho, hm] at hillegal
      exact absurd hillegal (codes_legal o m)
    · rw [herror, herror']

/-! ### The record of an instruction made of fields -/

theorem Reg.selector_ofSelector {n : Int} (h : inField2 n) : (Reg.ofSelector n).selector = n := by
  obtain ⟨h1, h2⟩ : -4 ≤ n ∧ n ≤ 4 := h
  interval_cases n <;> rfl

/-- The record of an instruction holds the fields it was made of, 0 for the ignored ones. -/
theorem Instr.toRecord_ofFields (o : Opcode) (m : Mode) {x y : Int} (hx : inField2 x) (hy : inField2 y) (z : Word) :
    (Instr.ofFields o m x y z).toRecord
      = ⟨o.code, m, if o.ignoresX then 0 else x, if o.ignoresY m then 0 else y,
          if m = .wordImmediate then some (.word z) else none⟩ := by
  have ex := Reg.selector_ofSelector hx
  have ey := Reg.selector_ofSelector hy
  cases o with
  | nop => cases m <;> rfl
  | jmp | beq | bgt | blt | jal =>
    cases m with
    | registerRegister => exact congrArg (Record.mk _ _ _ · _) ey
    | shortImmediate | wordImmediate => rfl
  | add | addc | mul | div | mod | neg | min | max | con | any | rsh | ush | mov | cmp | lod | xor =>
    cases m with
    | registerRegister => exact congrArg₂ (Record.mk _ _ · · _) ex ey
    | shortImmediate | wordImmediate => exact congrArg (Record.mk _ _ · _ _) ex

/-- Settles O17: a field of a word is in range, and an ignored field is 0. -/
theorem decodedInstructionsAreWellFormed : Obligations.DecodedInstructionsAreWellFormed := by
  intro w z i hdecode
  obtain ⟨o, m, -, -, rfl⟩ := fields_of_decode hdecode
  obtain ⟨hop, hx, hz⟩ := Laws.RecordIsLegal.all (Instr.ofFields o m (xField w) (yField w) z)
  refine ⟨hop, hx, .inr ?_, hz⟩
  rw [Instr.toRecord_ofFields o m (xField_range w) (yField_range w)]
  dsimp only
  split
  · exact inField2_zero
  · exact yField_range w

/-! ### What encode answers -/

/-- The z a mode asks for, as the second word of an encoding (30_encoding.md R51, R65). -/
theorem exists_secondWord_of_zMatches {m : Mode} {z : Option ZField} (h : zMatches m z = true) :
    ∃ u : Option Word, z = u.map .word ∧ (u.isSome = true ↔ m = .wordImmediate) := by
  cases m with
  | registerRegister | shortImmediate =>
    cases z with
    | none => exact ⟨none, rfl, by simp⟩
    | some f => cases h
  | wordImmediate =>
    obtain _ | v | _ := z
    · cases h
    · exact ⟨some v, rfl, by simp⟩
    · cases h

theorem encodeRecord_of_wf {r : Record} (h : r.wf) :
    ∃ u : Option Word, r.z = u.map .word ∧ (u.isSome = true ↔ r.mode = .wordImmediate)
      ∧ encodeRecord r
          = .ok (packFields r.opcode r.mode.code r.x (if r.mode = .wordImmediate then 0 else r.y), u) := by
  obtain ⟨op, m, x, y, z⟩ := r
  obtain ⟨hop, hx, hy, hz⟩ := h
  obtain ⟨u, hu, hsome⟩ := exists_secondWord_of_zMatches hz
  refine ⟨u, hu, hsome, ?_⟩
  obtain rfl : z = u.map .word := hu
  rw [encodeRecord, if_neg (by simpa [Option.isSome_iff_ne_none] using hop), if_neg (not_not.mpr hx)]
  cases u with
  | some v =>
    obtain rfl : m = .wordImmediate := hsome.mp rfl
    rfl
  | none =>
    cases m with
    | wordImmediate => cases hsome.mpr rfl
    | registerRegister | shortImmediate => exact if_pos (hy.resolve_left nofun)

theorem encodeRecord_of_not_wf {r : Record} (h : ¬ r.wf) : encodeRecord r = .error .encodeError := by
  obtain ⟨op, m, x, y, z⟩ := r
  by_cases hop : (Opcode.ofCode op).isNone = true
  · exact if_pos hop
  by_cases hx : inField2 x
  · have hyz : ¬ ((m = .wordImmediate ∨ inField2 y) ∧ zMatches m z = true) := fun hyz =>
      h ⟨by simpa [Option.isSome_iff_ne_none] using hop, hx, hyz⟩
    rw [encodeRecord, if_neg hop, if_neg (not_not.mpr hx)]
    match m, z with
    | .wordImmediate, some (.word _) => exact absurd ⟨.inl rfl, rfl⟩ hyz
    | .wordImmediate, none | .wordImmediate, some .unresolvedLabel => rfl
    | .registerRegister, some _ | .shortImmediate, some _ => rfl
    | .registerRegister, none | .shortImmediate, none => exact if_neg fun hy => hyz ⟨.inr hy, rfl⟩
  · rw [encodeRecord, if_neg hop, if_pos hx]

/-- Settles O16: `Record.wf` lists the checks of encode. -/
theorem encodeErrorExactlyOnIllFormedRecords : Obligations.EncodeErrorExactlyOnIllFormedRecords := by
  refine fun r => ⟨fun h => ?_, encodeRecord_of_not_wf⟩
  obtain ⟨u, -, -, hok⟩ := encodeRecord_of_wf h
  exact ⟨_, u, hok⟩

/-- What encode accepts is well-formed; the first word holds the fields of the record, y as 0 under WORD_IMMEDIATE, and the
second word is its z. -/
theorem fields_of_encodeRecord {r : Record} {w : Word} {u : Option Word} (h : encodeRecord r = .ok (w, u)) :
    (∃ o : Opcode, r.opcode = o.code)
      ∧ opcodeField w = r.opcode ∧ modeField w = r.mode.code ∧ xField w = r.x
      ∧ yField w = (if r.mode = .wordImmediate then 0 else r.y)
      ∧ r.z = u.map .word ∧ (u.isSome = true ↔ r.mode = .wordImmediate) := by
  by_cases hwf : r.wf
  · obtain ⟨u', hz, hsome, hok⟩ := encodeRecord_of_wf hwf
    obtain ⟨rfl, rfl⟩ := Prod.mk.inj (Except.ok.inj (hok.symm.trans h))
    obtain ⟨hop, hx, hy, -⟩ := hwf
    obtain ⟨o, ho⟩ := Option.isSome_iff_exists.mp hop
    have hcode := Opcode.code_of_ofCode ho
    have hy' : inField2 (if r.mode = .wordImmediate then 0 else r.y) := by
      split
      · exact inField2_zero
      · next hm => exact hy.resolve_left hm
    obtain ⟨eop, em, ex, ey⟩ := packFields_fields (hcode ▸ o.code_range) r.mode.code_inField2 hx hy'
    exact ⟨⟨o, hcode.symm⟩, eop, em, ex, ey, hz, hsome⟩
  · cases (encodeRecord_of_not_wf hwf).symm.trans h

theorem Mode.length_eq (m : Mode) : m.length = if m = .wordImmediate then 2 else 1 := by
  cases m <;> rfl

theorem length_of_encodeRecord {r : Record} {w : Word} {z : Option Word} (h : encodeRecord r = .ok (w, z)) :
    r.mode.length = if z.isSome then 2 else 1 := by
  obtain ⟨-, -, -, -, -, -, hsome⟩ := fields_of_encodeRecord h
  rw [Mode.length_eq]
  exact if_congr hsome.symm rfl rfl

/-! ### decode and encode undo each other (30_encoding.md R66) -/

/-- Settles O13: decode reads back the fields encode has written. -/
theorem recordDecodeInvertsEncode : Obligations.RecordDecodeInvertsEncode := by
  intro r w u z2 h
  obtain ⟨⟨o, ho⟩, hop, hm, hx, hy, hz, hsome⟩ := fields_of_encodeRecord h
  have hz' : r.z = if r.mode = .wordImmediate then some (.word (u.getD z2)) else none := by
    simp only [hz, ← hsome]
    cases u <;> rfl
  rw [decodeRecord_of_codes (hop.trans ho) hm, hx, hy, ← hz', ← ho]

/-- Settles O14: an instruction is made of the fields of its record, and those decode reads back. -/
theorem decodeInvertsEncode : Obligations.DecodeInvertsEncode := by
  intro i hwf
  obtain ⟨o, ho, hfields⟩ := Laws.FieldsMakeTheInstruction.all i
  obtain ⟨w, u, hencode⟩ := (encodeErrorExactlyOnIllFormedRecords i.toRecord).1 hwf
  obtain ⟨-, hop, hm, hx, hy, hz, hsome⟩ := fields_of_encodeRecord hencode
  refine ⟨w, u, hencode, hsome, fun z2 => ?_⟩
  rw [decode_of_codes (hop.trans (Opcode.code_of_ofCode ho).symm) hm, hx, hy]
  refine congrArg _ (.trans (Instr.ofFields_congr (.inr rfl) ?_ ?_) hfields)
  · by_cases hword : i.toRecord.mode = .wordImmediate
    · exact .inl (.inr hword)
    · exact .inr (if_neg hword)
  · intro hword
    obtain ⟨v, rfl⟩ := Option.isSome_iff_exists.mp (hsome.mpr hword)
    rw [Record.secondWord, hz]
    rfl

/-- Settles O15: encode writes the record of the decoded instruction, which has 0 in the ignored fields. -/
theorem encodeInvertsDecodeUpToIgnoredFields : Obligations.EncodeInvertsDecodeUpToIgnoredFields := by
  intro w z i hdecode
  have hwf := decodedInstructionsAreWellFormed w z i hdecode
  obtain ⟨v, u, hencode⟩ := (encodeErrorExactlyOnIllFormedRecords i.toRecord).1 hwf
  obtain ⟨-, hop, hm, hx, hy, hz, -⟩ := fields_of_encodeRecord hencode
  obtain ⟨o, m, ho, hmode, rfl⟩ := fields_of_decode hdecode
  rw [Instr.toRecord_ofFields o m (xField_range w) (yField_range w)] at hop hm hx hy hz
  dsimp only at hop hm hx hy hz
  refine ⟨v, u, hencode, ?_⟩
  simp only [ho, hmode, m.code_eq_two_iff]
  refine ⟨hop, hm, hx, ?_, ?_⟩
  · by_cases hword : m = .wordImmediate
    · rw [hy, if_pos hword, if_pos (.inr hword)]
    · rw [hy, if_neg hword]
  · refine Option.map_injective (fun _ _ => ZField.word.inj) (hz.symm.trans ?_)
    split <;> rfl

end Sys2Proof

namespace Sys2Proof.Machine

/-! ### The modes and lengths the assembler chooses -/

theorem chooseMode_imm (w : Word) :
    chooseMode (some (.imm w)) = if w.val.natAbs ≤ 4 then .shortImmediate else .wordImmediate := by
  have hmagnitude : (-Config.shortImmMax ≤ w.val ∧ w.val ≤ Config.shortImmMax) ↔ w.val.natAbs ≤ 4 := by
    rw [Config.shortImmMax]
    omega
  rw [chooseMode, if_congr hmagnitude rfl rfl]

/-- Settles O59: the mode of an immediate is the one of its magnitude, and its record follows the mode. -/
theorem immediateMagnitudeChoosesTheMode : Obligations.ImmediateMagnitudeChoosesTheMode := by
  intro o x w labels
  have hmode := chooseMode_imm w
  by_cases hshort : w.val.natAbs ≤ 4
  · rw [if_pos hshort] at hmode ⊢
    simp only [toRecord, yOf, hmode, if_pos]
  · rw [if_neg hshort] at hmode ⊢
    simp only [toRecord, hmode]

/-- The record of pass 2 has the mode that pass 1 counted with. -/
theorem mode_of_toRecord {labels : Labels} {p : Parsed} {r : Record} (h : toRecord labels p = .ok r) :
    r.mode = chooseMode p.last := by
  obtain ⟨o, x, last⟩ := p
  match last with
  | none | some (.reg _) =>
    cases h
    rfl
  | some (.imm w) =>
    rw [immediateMagnitudeChoosesTheMode] at h
    rw [chooseMode_imm]
    cases h
    split <;> rfl
  | some (.label name) =>
    simp only [toRecord] at h
    split at h
    · cases h
    · split at h
      · cases h
        rfl
      · cases h

theorem pass1Line_instr_cases {anyCase : Bool} {st st' : Pass1} {m : List Char} {ops : List (List Char)}
    (h : pass1Line anyCase st (.instr m ops) = .ok st') :
    ∃ p, st'.items = st.items ++ [(st.cursor, p)] ∧ st'.cursor = st.cursor + (chooseMode p.last).length := by
  rw [pass1Line] at h
  split at h
  · cases h
  · next p _ =>
    cases h
    exact ⟨p, rfl, rfl⟩

/-- Settles O60: both passes take the length from one mode. -/
theorem passesAgreeOnTheLength : Obligations.PassesAgreeOnTheLength := by
  intro anyCase st st' m ops a p labels r w z hline hitem hrecord hencode
  obtain ⟨q, hitems, hcursor⟩ := pass1Line_instr_cases hline
  obtain ⟨rfl, rfl⟩ : st.cursor = a ∧ q = p := by simpa [hitems] using hitem
  refine ⟨rfl, ?_⟩
  rw [hcursor, ← mode_of_toRecord hrecord, length_of_encodeRecord hencode]

end Sys2Proof.Machine
end

section
/-! PROOFS of the statements of 40_numeral_codec.md: the value of a word, and the conversions between words, integers, trit
sequences and sign strings. -/

namespace Sys2Proof

/-! ### Words and integers -/

theorem Word.val_eq_positionalSum (w : Word) :
    w.val = ((List.range 9).map fun i => (w.trit i).val * 3 ^ (8 - i)).sum := by
  simp only [List.range_succ, List.range_zero, List.nil_append, List.cons_append, List.map_cons, List.map_nil,
    List.sum_cons, List.sum_nil, Word.trit, Word.val]
  ring

/-- Settles O1: the places of `Word.val` are the powers of 3, and NEG negates a word trit by trit. -/
theorem wordValueIsThePositionalSum : Obligations.WordValueIsThePositionalSum :=
  fun w => ⟨w.val_eq_positionalSum, w.val_range.1, w.val_range.2, Machine.Alu.val_negate w w⟩

/-- Settles O2: `wordOf` gives the word of an integer in range, and words of one value are equal. -/
theorem intToWordIsExactOrRangeError : Obligations.IntToWordIsExactOrRangeError := by
  refine fun n => ⟨fun ⟨h1, h2⟩ => ?_, intToWord_of_not_range⟩
  have hval := val_wordOf_of_range h1 h2
  exact ⟨wordOf n, intToWord_of_range h1 h2, hval, fun v hv => Word.val_injective (hv.trans hval.symm)⟩

theorem intToWord_val (w : Word) : intToWord w.val = .ok w := by
  rw [intToWord_of_range w.val_range.1 w.val_range.2, wordOf_val]

/-! ### Sign strings (40_numeral_codec.md R90 to R92) -/

theorem Trit.exists_char_eq_iff (c : Char) : (∃ t : Trit, t.char = c) ↔ c = '-' ∨ c = 'o' ∨ c = '+' := by
  constructor
  · rintro ⟨t, rfl⟩
    cases t <;> decide
  · rintro (rfl | rfl | rfl)
    · exact ⟨.neg, rfl⟩
    · exact ⟨.zero, rfl⟩
    · exact ⟨.pos, rfl⟩

theorem tritsOfChars_map_char (ts : List Trit) : tritsOfChars (ts.map Trit.char) = some ts := by
  induction ts with
  | nil => rfl
  | cons t ts ih => rw [List.map_cons, tritsOfChars, tritOfChar_char, ih]

theorem map_char_of_tritsOfChars {s : List Char} {ts : List Trit} (h : tritsOfChars s = some ts) :
    ts.map Trit.char = s := by
  induction s generalizing ts with
  | nil =>
    cases h
    rfl
  | cons c cs ih =>
    rw [tritsOfChars] at h
    split at h
    · next t us ht hus =>
      cases h
      rw [List.map_cons, char_of_tritOfChar ht, ih hus]
    · cases h

@[simp] theorem wordToString_length (w : Word) : (wordToString w).length = 9 := rfl

theorem wordToString_getElem? (w : Word) {k : Nat} (h : k < 9) : (wordToString w)[k]? = some (w.trit k).char := by
  match k, h with
  | 0, _ | 1, _ | 2, _ | 3, _ | 4, _ | 5, _ | 6, _ | 7, _ | 8, _ => rfl

/-- The characters of nine trits are the sign string of their word. -/
theorem wordToString_ext9 {ts : List Trit} (h : ts.length = 9) : wordToString (ext9 ts) = ts.map Trit.char := by
  rw [wordToString, trits_of_length_nine h]

theorem exists_wordToString_eq_iff (s : List Char) :
    (∃ w, wordToString w = s) ↔ s.length = 9 ∧ ∀ c ∈ s, c = '-' ∨ c = 'o' ∨ c = '+' := by
  constructor
  · rintro ⟨w, rfl⟩
    refine ⟨wordToString_length w, fun c hc => (Trit.exists_char_eq_iff c).mp ?_⟩
    obtain ⟨t, -, ht⟩ := List.mem_map.mp hc
    exact ⟨t, ht⟩
  · rintro ⟨hlength, halphabet⟩
    obtain ⟨ts, rfl⟩ : s ∈ Set.range (List.map Trit.char) := by
      rw [Set.range_list_map]
      exact fun c hc => (Trit.exists_char_eq_iff c).mpr (halphabet c hc)
    exact ⟨ext9 ts, wordToString_ext9 (by simpa using hlength)⟩

@[simp] theorem stringToWord_wordToString (w : Word) : stringToWord (wordToString w) = .ok w := by
  rw [stringToWord, if_pos (wordToString_length w), wordToString, tritsOfChars_map_char]
  rfl

/-- What stringToWord can do: the string of a word gives that word, any other string is a FormatError. -/
theorem stringToWord_cases (s : List Char) :
    (∃ w, wordToString w = s ∧ stringToWord s = .ok w)
      ∨ ((¬ ∃ w, wordToString w = s) ∧ stringToWord s = .error .formatError) := by
  by_cases hstring : ∃ w, wordToString w = s
  · obtain ⟨w, rfl⟩ := hstring
    exact .inl ⟨w, rfl, stringToWord_wordToString w⟩
  · refine .inr ⟨hstring, ?_⟩
    rw [stringToWord]
    split
    · next hlength =>
      split
      · next ts hts =>
        have hmap := map_char_of_tritsOfChars hts
        have hnine : ts.length = 9 := by simpa [← hmap] using hlength
        exact absurd ⟨ext9 ts, (wordToString_ext9 hnine).trans hmap⟩ hstring
      · rfl
    · rfl

/-- Settles O3: the strings of nine alphabet characters are the strings of the words. -/
theorem signStringsAreReadExactly : Obligations.SignStringsAreReadExactly := by
  intro s
  rw [← exists_wordToString_eq_iff]
  rcases stringToWord_cases s with ⟨w, rfl, hok⟩ | ⟨hnone, herror⟩
  · exact ⟨fun _ => ⟨w, hok, fun _ => wordToString_getElem? w⟩, fun hnone => absurd ⟨w, rfl⟩ hnone⟩
  · exact ⟨fun hstring => absurd hstring hnone, fun _ => herror⟩

theorem wordToString_of_stringToWord {s : List Char} {w : Word} (h : stringToWord s = .ok w) : wordToString w = s := by
  rcases stringToWord_cases s with ⟨v, hv, hok⟩ | ⟨-, herror⟩
  · cases hok.symm.trans h
    exact hv
  · cases herror.symm.trans h

/-! ### Trit sequences (40_numeral_codec.md R96, R97) -/

/-- A numeral is read back trit by trit from its least significant end. -/
theorem lowTrits_digitsToInt (ds : List Trit) : lowTrits ds.length (digitsToInt ds) = ds := by
  induction ds using List.reverseRecOn with
  | nil => rfl
  | append_singleton ds t ih =>
    rw [List.length_append, List.length_singleton, lowTrits, digitsToInt_snoc, balQuot_snoc, balRem_snoc, ih]

theorem intToDigits_digitsToInt (ds : List Trit) : intToDigits (digitsToInt ds) ds.length = .ok ds := by
  rw [intToDigits, if_pos (digitsToInt_range ds), lowTrits_digitsToInt]

theorem length_and_value_of_intToDigits {n : Int} {k : Nat} {ds : List Trit} (h : intToDigits n k = .ok ds) :
    ds.length = k ∧ digitsToInt ds = n := by
  rw [intToDigits] at h
  split at h
  · next hrange =>
    cases h
    exact ⟨lowTrits_length k n, digitsToInt_lowTrits_of_range hrange.1 hrange.2⟩
  · cases h

theorem digitsToInt_cons_zero (ds : List Trit) : digitsToInt (.zero :: ds) = digitsToInt ds := rfl

theorem ext9_cons_zero (ds : List Trit) : ext9 (.zero :: ds) = ext9 ds := by
  have hpad (k : Nat) : (ds.reverse ++ [Trit.zero]).getD k .zero = ds.reverse.getD k .zero := by
    rcases lt_or_ge k ds.reverse.length with hin | hout
    · exact List.getD_append _ _ _ _ hin
    · rw [List.getD_append_right _ _ _ _ hout, List.getD_eq_default _ _ hout]
      cases k - ds.reverse.length <;> rfl
  simp only [ext9, List.reverse_cons, hpad]

/-- Zero trits in front, as many as are missing to nine, change neither the word nor the value. -/
theorem val_ext9_of_length_le {ds : List Trit} (h : ds.length ≤ 9) : (ext9 ds).val = digitsToInt ds := by
  rcases h.eq_or_lt with hnine | hshort
  · rw [← digitsToInt_trits, trits_of_length_nine hnine]
  · rw [← ext9_cons_zero, ← digitsToInt_cons_zero]
    exact val_ext9_of_length_le (ds := .zero :: ds) hshort
termination_by 9 - ds.length

/-- Settles O4: each conversion undoes the other. -/
theorem codecConversionsAreMutualInverses : Obligations.CodecConversionsAreMutualInverses :=
  ⟨intToWord_val, stringToWord_wordToString, fun _ _ => wordToString_of_stringToWord, intToDigits_digitsToInt,
    fun _ _ _ => length_and_value_of_intToDigits, fun _ => val_ext9_of_length_le⟩

end Sys2Proof
end

section
/-! PROOFS of the statements of 41_alu_functions.md: the sum and its full adders, the lattice of the trits, quotient and
remainder, shifts and rotations. -/

namespace Sys2Proof

/-! ### Words by the values of their trits -/

theorem Word.ext_trit_val {v w : Word} (h : ∀ i < 9, (v.trit i).val = (w.trit i).val) : v = w :=
  Word.ext_trit fun i hi => Trit.val_injective (h i hi)

theorem Word.trit_zero {i : Nat} (hi : i < 9) : Word.zero.trit i = .zero :=
  Word.trit_ofFn (fun _ => .zero) hi

/-- The word of 9841 is `+++++++++`. -/
theorem trit_wordOf_max {i : Nat} (hi : i < 9) : (wordOf 9841).trit i = .pos := by
  have hword : wordOf 9841 = Word.ofFn fun _ => .pos := by decide
  rw [hword, Word.trit_ofFn _ hi]

/-- The word of -9841 is `---------`. -/
theorem trit_wordOf_min {i : Nat} (hi : i < 9) : (wordOf (-9841)).trit i = .neg := by
  have hword : wordOf (-9841) = Word.ofFn fun _ => .neg := by decide
  rw [hword, Word.trit_ofFn _ hi]

/-! ### The trit sequence of a word -/

@[simp] theorem Word.trits_length (w : Word) : w.trits.length = 9 := rfl

theorem Word.trits_getElem (w : Word) {i : Nat} (hi : i < w.trits.length) : w.trits[i] = w.trit i := by
  match i, hi with
  | 0, _ | 1, _ | 2, _ | 3, _ | 4, _ | 5, _ | 6, _ | 7, _ | 8, _ => rfl

theorem digitsToInt_append (ds es : List Trit) :
    digitsToInt (ds ++ es) = digitsToInt ds * 3 ^ es.length + digitsToInt es := by
  induction es using List.reverseRecOn with
  | nil => simp [digitsToInt]
  | append_singleton es t ih =>
    rw [← List.append_assoc, digitsToInt_snoc, digitsToInt_snoc, ih, List.length_append, List.length_singleton, pow_succ]
    ring

@[simp] theorem digitsToInt_replicate_zero (m : Nat) : digitsToInt (List.replicate m .zero) = 0 := by
  induction m with
  | zero => rfl
  | succ m ih => rw [List.replicate_succ, digitsToInt_cons_zero, ih]

/-- A word cut before index k: its value is that of its first k trits, moved up, plus that of the rest. -/
theorem Word.val_eq_take_add_drop (w : Word) (k : Nat) :
    w.val = digitsToInt (w.trits.take k) * 3 ^ (9 - k) + digitsToInt (w.trits.drop k) := by
  rw [← digitsToInt_trits]
  conv_lhs => rw [← List.take_append_drop k w.trits, digitsToInt_append, List.length_drop, Word.trits_length]

/-! ### Wrapping -/

theorem wrap_wrap_add (n m : Int) : wrap (wrap n + m) = wrap (n + m) := by
  unfold wrap Config.wordMax Config.wordValues
  omega

theorem wrap_add_wrap (n m : Int) : wrap (n + wrap m) = wrap (n + m) := by
  rw [add_comm, wrap_wrap_add, add_comm]

end Sys2Proof

namespace Sys2Proof.Machine

/-! ### The sum (41_alu_functions.md R120) -/

theorem ripple_length {ps qs : List Trit} (h : ps.length = qs.length) (c : Trit) :
    (Alu.ripple ps qs c).1.length = ps.length := by
  induction ps generalizing qs c with
  | nil => rfl
  | cons p ps ih =>
    cases qs with
    | nil => cases h
    | cons q qs => exact congrArg (· + 1) (ih (Nat.succ.inj h) _)

/-- A row of full adders keeps the sum, by `fullAdder_spec` at each place. -/
theorem ripple_sum {ps qs : List Trit} (h : ps.length = qs.length) (c : Trit) :
    digitsToInt ps.reverse + digitsToInt qs.reverse + c.val
      = (Alu.ripple ps qs c).2.val * 3 ^ ps.length + digitsToInt (Alu.ripple ps qs c).1.reverse := by
  induction ps generalizing qs c with
  | nil =>
    cases qs with
    | nil => simp [Alu.ripple, digitsToInt]
    | cons q qs => cases h
  | cons p ps ih =>
    cases qs with
    | nil => cases h
    | cons q qs =>
      have hplace := Alu.fullAdder_spec p q c
      have hrest := ih (Nat.succ.inj h) (Alu.fullAdder p q c).2
      simp only [Alu.ripple, List.reverse_cons, digitsToInt_snoc, List.length_cons, pow_succ]
      linarith

theorem rippleAdd_sum (a b : Word) :
    a.val + b.val = (Alu.rippleAdd a b).2.val * 19683 + (Alu.rippleAdd a b).1.val := by
  have hlength : a.trits.reverse.length = b.trits.reverse.length := rfl
  have hsum := ripple_sum hlength .zero
  have hnine : (Alu.ripple a.trits.reverse b.trits.reverse .zero).1.reverse.length = 9 := by
    rw [List.length_reverse, ripple_length hlength, List.length_reverse, Word.trits_length]
  rw [List.reverse_reverse, List.reverse_reverse, digitsToInt_trits, digitsToInt_trits, List.length_reverse,
    Word.trits_length, ← trits_of_length_nine hnine, digitsToInt_trits] at hsum
  simpa [Alu.rippleAdd] using hsum

theorem rippleAdd_word (a b : Word) : (Alu.rippleAdd a b).1 = Alu.add a b := by
  obtain ⟨hlow, hhigh⟩ := (Alu.rippleAdd a b).1.val_range
  exact Word.val_injective ((wrap_unique (rippleAdd_sum a b) hlow hhigh).symm.trans (Alu.val_add a b).symm)

theorem aluAdd_comm (a b : Word) : Alu.add a b = Alu.add b a := by
  rw [Alu.add, add_comm, ← Alu.add]

theorem aluAdd_assoc (a b c : Word) : Alu.add (Alu.add a b) c = Alu.add a (Alu.add b c) :=
  Word.val_injective <| by
    rw [Alu.val_add, Alu.val_add, wrap_wrap_add, Alu.val_add, Alu.val_add, wrap_add_wrap, add_assoc]

/-- Settles O36: the ripple's word and carry make the exact sum, and only the wrapped sum is in a word's range. -/
theorem addIsTheRippleOfFullAdders : Obligations.AddIsTheRippleOfFullAdders := fun a b c =>
  ⟨Alu.val_add a b, rippleAdd_word a b, rippleAdd_word a b ▸ rippleAdd_sum a b, aluAdd_comm a b, aluAdd_assoc a b c⟩

/-! ### The lattice of the trits (41_alu_functions.md R113, R114) -/

theorem val_trit_min (a b : Word) {i : Nat} (hi : i < 9) :
    ((Alu.min a b).trit i).val = min (a.trit i).val (b.trit i).val := by
  rw [Alu.min, Alu.trit_perTrit _ _ _ hi, Alu.minTrit_val]

theorem val_trit_max (a b : Word) {i : Nat} (hi : i < 9) :
    ((Alu.max a b).trit i).val = max (a.trit i).val (b.trit i).val := by
  rw [Alu.max, Alu.trit_perTrit _ _ _ hi, Alu.maxTrit_val]

theorem val_trit_negate (a b : Word) {i : Nat} (hi : i < 9) : ((Alu.negate a b).trit i).val = -(b.trit i).val := by
  rw [Alu.negate, Word.trit_ofFn _ hi, Alu.negTrit_val]

theorem aluMin_comm (a b : Word) : Alu.min a b = Alu.min b a :=
  Word.ext_trit_val fun i hi => by rw [val_trit_min _ _ hi, val_trit_min _ _ hi, min_comm]

theorem aluMin_assoc (a b c : Word) : Alu.min (Alu.min a b) c = Alu.min a (Alu.min b c) :=
  Word.ext_trit_val fun i hi => by simp only [val_trit_min _ _ hi, min_assoc]

theorem aluMin_self (a : Word) : Alu.min a a = a :=
  Word.ext_trit_val fun i hi => by rw [val_trit_min _ _ hi, min_self]

theorem aluMin_allPlus (a : Word) : Alu.min a (wordOf 9841) = a :=
  Word.ext_trit_val fun i hi => by
    rw [val_trit_min _ _ hi, trit_wordOf_max hi]
    exact min_eq_left (a.trit i).val_range.2

theorem aluMin_allMinus (a : Word) : Alu.min a (wordOf (-9841)) = wordOf (-9841) :=
  Word.ext_trit_val fun i hi => by
    rw [val_trit_min _ _ hi, trit_wordOf_min hi]
    exact min_eq_right (a.trit i).val_range.1

theorem aluMax_comm (a b : Word) : Alu.max a b = Alu.max b a :=
  Word.ext_trit_val fun i hi => by rw [val_trit_max _ _ hi, val_trit_max _ _ hi, max_comm]

theorem aluMax_assoc (a b c : Word) : Alu.max (Alu.max a b) c = Alu.max a (Alu.max b c) :=
  Word.ext_trit_val fun i hi => by simp only [val_trit_max _ _ hi, max_assoc]

theorem aluMax_self (a : Word) : Alu.max a a = a :=
  Word.ext_trit_val fun i hi => by rw [val_trit_max _ _ hi, max_self]

theorem aluMax_allMinus (a : Word) : Alu.max a (wordOf (-9841)) = a :=
  Word.ext_trit_val fun i hi => by
    rw [val_trit_max _ _ hi, trit_wordOf_min hi]
    exact max_eq_left (a.trit i).val_range.1

theorem aluMax_allPlus (a : Word) : Alu.max a (wordOf 9841) = wordOf 9841 :=
  Word.ext_trit_val fun i hi => by
    rw [val_trit_max _ _ hi, trit_wordOf_max hi]
    exact max_eq_right (a.trit i).val_range.2

/-- Negation turns the order of the trits around; its accumulators `x` and `y` do not count. -/
theorem aluMax_eq_negate_min (x y a b : Word) :
    Alu.max a b = Alu.negate x (Alu.min (Alu.negate y a) (Alu.negate y b)) :=
  Word.ext_trit_val fun i hi => by
    rw [val_trit_max _ _ hi, val_trit_negate _ _ hi, val_trit_min _ _ hi, val_trit_negate _ _ hi,
      val_trit_negate _ _ hi, min_neg_neg, neg_neg]

/-- The per-trit lesser of 1 (`oooooooo+`) and 2 (`ooooooo+-`) is -1, below both. -/
theorem aluMin_ne_integer_min : (Alu.min (wordOf 1) (wordOf 2)).val ≠ min (wordOf 1).val (wordOf 2).val := by
  decide

/-- Settles O37: position by position the laws are those of the integers' lesser and greater. -/
theorem minAndMaxAreThePerTritLattice : Obligations.MinAndMaxAreThePerTritLattice :=
  ⟨fun a b c =>
    ⟨fun _ hi => ⟨val_trit_min a b hi, val_trit_max a b hi⟩, aluMin_comm a b, aluMax_comm a b, aluMin_assoc a b c,
      aluMax_assoc a b c, aluMin_self a, aluMax_self a, aluMin_allPlus a, aluMin_allMinus a, aluMax_allMinus a,
      aluMax_allPlus a, aluMax_eq_negate_min a a a b⟩,
    wordOf 1, wordOf 2, aluMin_ne_integer_min⟩

/-! ### Quotient and remainder (41_alu_functions.md R121, R122) -/

theorem divide_mul_add_modulo (a b : Word) : a.val = (Alu.divide a b).val * b.val + (Alu.modulo a b).val := by
  rw [Alu.val_divide, Alu.val_modulo]
  split
  · rw [zero_mul, zero_add]
  · rw [mul_comm, Int.mul_tdiv_add_tmod]

/-- The magnitude of a truncated remainder is the remainder of the magnitudes. -/
theorem natAbs_modulo_lt {a b : Word} (h : b.val ≠ 0) : (Alu.modulo a b).val.natAbs < b.val.natAbs := by
  rw [Alu.val_modulo, if_neg h, Int.natAbs_tmod]
  exact Nat.mod_lt _ (Int.natAbs_pos.mpr h)

theorem modulo_mul_dividend_nonneg {a b : Word} (h : b.val ≠ 0) : 0 ≤ (Alu.modulo a b).val * a.val := by
  rw [Alu.val_modulo, if_neg h]
  rcases le_total 0 a.val with ha | ha
  · exact mul_nonneg (Int.tmod_nonneg _ ha) ha
  · have hneg : 0 ≤ (-a.val).tmod b.val := Int.tmod_nonneg _ (neg_nonneg.mpr ha)
    rw [Int.neg_tmod] at hneg
    exact mul_nonneg_of_nonpos_of_nonpos (neg_nonneg.mp hneg) ha

/-- Settles O38: the ALU's quotient and remainder are the integers' truncated ones, and a zero divisor's are 0 and the
dividend. -/
theorem quotientAndRemainderMakeTheDividend : Obligations.QuotientAndRemainderMakeTheDividend :=
  fun a b => ⟨divide_mul_add_modulo a b, fun h => ⟨natAbs_modulo_lt h, modulo_mul_dividend_nonneg h⟩⟩

/-! ### Shifts (41_alu_functions.md R126) -/

/-- A left shift by m drops the m trits in front and puts m zero trits behind. -/
theorem trits_unsignedShift_left {a b : Word} {m : Nat} (hm : m ≤ 8) (hb : b.val = m) :
    (Alu.unsignedShift a b).trits = a.trits.drop m ++ List.replicate m .zero := by
  refine List.ext_getElem ?_ fun i hi _ => ?_
  · rw [Word.trits_length, List.length_append, List.length_drop, Word.trits_length, List.length_replicate,
      Nat.sub_add_cancel (by omega)]
  rw [Word.trits_length] at hi
  rw [Word.trits_getElem, Alu.trit_unsignedShift a b hi, List.getElem_append]
  simp only [List.length_drop, Word.trits_length, List.getElem_drop, Word.trits_getElem, List.getElem_replicate]
  split
  · rw [dif_pos (by omega), show ((i : Int) + b.val).toNat = m + i by omega]
  · rw [dif_neg (by omega)]

/-- A right shift by m puts m zero trits in front and drops the m trits behind. -/
theorem trits_unsignedShift_right {a b : Word} {m : Nat} (hm : m ≤ 8) (hb : b.val = -m) :
    (Alu.unsignedShift a b).trits = List.replicate m .zero ++ a.trits.take (9 - m) := by
  refine List.ext_getElem ?_ fun i hi _ => ?_
  · rw [Word.trits_length, List.length_append, List.length_replicate, List.length_take, Word.trits_length]
    omega
  rw [Word.trits_length] at hi
  rw [Word.trits_getElem, Alu.trit_unsignedShift a b hi, List.getElem_append]
  simp only [List.length_replicate, List.getElem_take, Word.trits_getElem, List.getElem_replicate]
  split
  · rw [dif_neg (by omega), show ((i : Int) + b.val).toNat = i - m by omega]
  · rw [dif_pos (by omega)]

/-- The trits that a left shift drops are a multiple of 3^9 in the product. -/
theorem val_unsignedShift_left {a b : Word} {m : Nat} (hm : m ≤ 8) (hb : b.val = m) :
    (Alu.unsignedShift a b).val = wrap (a.val * 3 ^ m) := by
  obtain ⟨hlow, hhigh⟩ := (Alu.unsignedShift a b).val_range
  refine (wrap_unique (c := digitsToInt (a.trits.take m)) ?_ hlow hhigh).symm
  have hplaces : (3 : Int) ^ (9 - m) * 3 ^ m = 19683 := by
    rw [← pow_add, Nat.sub_add_cancel (by omega)]
    norm_num
  calc a.val * 3 ^ m
      = digitsToInt (a.trits.take m) * (3 ^ (9 - m) * 3 ^ m) + digitsToInt (a.trits.drop m) * 3 ^ m := by
        rw [a.val_eq_take_add_drop m]
        ring
    _ = digitsToInt (a.trits.take m) * 19683 + (Alu.unsignedShift a b).val := by
        rw [hplaces, ← digitsToInt_trits (Alu.unsignedShift a b), trits_unsignedShift_left hm hb, digitsToInt_append,
          digitsToInt_replicate_zero, List.length_replicate, add_zero]

/-- What a right shift by m loses is the value of the m trits behind. -/
theorem val_eq_unsignedShift_right_add {a b : Word} {m : Nat} (hm : m ≤ 8) (hb : b.val = -m) :
    a.val = (Alu.unsignedShift a b).val * 3 ^ m + digitsToInt (a.trits.drop (9 - m)) := by
  rw [a.val_eq_take_add_drop (9 - m), ← digitsToInt_trits (Alu.unsignedShift a b), trits_unsignedShift_right hm hb,
    digitsToInt_append, digitsToInt_replicate_zero, zero_mul, zero_add, Nat.sub_sub_self (by omega)]

/-- m trits lie below half of 3^m, so that the shifted word is the nearest integer. -/
theorem unsignedShift_right_rounds {a b : Word} {m : Nat} (hm : m ≤ 8) (hb : b.val = -m) :
    2 * (a.val - (Alu.unsignedShift a b).val * 3 ^ m).natAbs < 3 ^ m := by
  have hlost := val_eq_unsignedShift_right_add (a := a) hm hb
  have hrange := digitsToInt_range (a.trits.drop (9 - m))
  rw [List.length_drop, Word.trits_length, Nat.sub_sub_self (by omega)] at hrange
  have hodd := pow3_odd m
  rw [sub_eq_of_eq_add' hlost]
  zify
  rw [hodd]
  have habs := abs_le.mpr hrange
  omega

theorem unsignedShift_eq_zero {a b : Word} (h : b.val ≤ -9 ∨ 9 ≤ b.val) : Alu.unsignedShift a b = Word.zero :=
  Word.ext_trit fun i hi => by rw [Alu.trit_unsignedShift a b hi, if_neg (by omega), Word.trit_zero hi]

/-- Settles O39, by the trits that each shift keeps, drops and brings in. -/
theorem shiftScalesByPowersOfThree : Obligations.ShiftScalesByPowersOfThree :=
  fun _ _ _ hm => ⟨val_unsignedShift_left hm, unsignedShift_right_rounds hm, unsignedShift_eq_zero⟩

/-! ### Rotations (41_alu_functions.md R125) -/

theorem rotateShift_rotateShift (a : Word) {b c d : Word} (h : (d.val - (b.val + c.val)) % 9 = 0) :
    Alu.rotateShift (Alu.rotateShift a b) c = Alu.rotateShift a d :=
  Word.ext_trit fun i hi => by
    rw [Alu.trit_rotateShift _ c hi, Alu.trit_rotateShift a b (by omega), Alu.trit_rotateShift a d hi]
    congr 2
    omega

theorem rotateShift_of_emod_eq_zero (a : Word) {b : Word} (h : b.val % 9 = 0) : Alu.rotateShift a b = a :=
  Word.ext_trit fun i hi => by
    have hindex : (((i : Int) + b.val) % 9).toNat = i := by omega
    rw [Alu.trit_rotateShift a b hi, hindex]

/-- Settles O40: indices move by the sum of the counts modulo 9. -/
theorem rotationsComposeByAddingCounts : Obligations.RotationsComposeByAddingCounts :=
  fun a _ _ _ h => ⟨rotateShift_rotateShift a h, rotateShift_of_emod_eq_zero a⟩

end Sys2Proof.Machine
end

section
/-! PROOFS of the statements of 42_step_cycle.md: the invariant that every step keeps, the step of a decoded instruction,
the step of a faulted machine, and NOP. -/

namespace Sys2Proof.Machine

/-! ### The invariant (60_exceptions.md R203) -/

/-- A clear latch makes no claim on the pc. -/
theorem State.sound_of_latch_clear {s : State} (hmem : s.mem.wf) (hlatch : s.latch = .clear) : s.sound :=
  ⟨hmem, by rw [State.latchSound, hlatch]; trivial⟩

/-- The latch records the pc it is taken at, so what it needs is an illegal word and no more. -/
theorem sound_takeDecodeError {s : State} {w : Word} (hmem : s.mem.wf) (hw : decode1 w = .error .decodeError) :
    (takeDecodeError s w).sound :=
  ⟨hmem, rfl, hw⟩

/-- The optional store writes one cell of the address space and leaves the latch as it is. -/
theorem sound_storeFrom {s : State} (x : Reg) (o : Operand) (hmem : s.mem.wf) (hlatch : s.latch = .clear) :
    (storeFrom x o s).sound :=
  State.sound_of_latch_clear (Memory.wf_store _ _ hmem) hlatch

/-- No instruction writes the latch or a cell. -/
theorem sound_of_exec {i : Instr} {s t : State} (h : exec i s = .next t) (hmem : s.mem.wf) (hlatch : s.latch = .clear) :
    t.sound := by
  have heffect := effect_of_exec h
  exact State.sound_of_latch_clear (heffect.mem_eq ▸ hmem) (heffect.latch_eq.trans hlatch)

/-- Settles O22, by what a step can do: it answers from a clear latch only, and sets the latch on an illegal word alone. The
advance of the pc touches neither memory nor the latch. -/
theorem stepKeepsTheStateSound : Obligations.StepKeepsTheStateSound := by
  rintro sta s t ⟨hmem, -⟩ h
  rcases stepWith_cases sta s with
    ⟨a, w, -, hstep⟩ | ⟨-, hillegal, -, hstep⟩ | ⟨hlatch, x, o, -, hstep⟩ | ⟨hlatch, -, i, -, hstep⟩
  · cases hstep.symm.trans h
  · cases hstep.symm.trans h
    exact sound_takeDecodeError hmem hillegal
  · cases hstep.symm.trans h
    exact sound_storeFrom x o hmem hlatch
  · exact sound_of_exec (hstep.symm.trans h) hmem hlatch

/-! ### The step of a decoded instruction (42_step_cycle.md R146, R148) -/

@[simp] theorem val_addressPlus (a : Word) (n : Int) : (addressPlus a n).val = wrap (a.val + n) :=
  val_wordOf_of_range (wrap_range _).1 (wrap_range _).2

/-- Settles O24: the pc of `advancePc` is the address one length on. -/
theorem stepRunsTheDecodedInstruction : Obligations.StepRunsTheDecodedInstruction := by
  intro s i hlatch hdecode
  refine ⟨addressPlus s.pc i.length, ?_, step_of_decode hlatch hdecode⟩
  rw [val_addressPlus, Instr.length, Mode.length_eq]

/-! ### The step of a faulted machine (42_step_cycle.md R141) -/

/-- Of the cases of a step one has a set latch. -/
theorem stepWith_of_latch_set {s : State} {a w : Word} (sta : Option Config.FreeOpcode) (h : s.latch = .set a w) :
    stepWith sta s = .fault (.decodeError a w) := by
  rcases stepWith_cases sta s with ⟨b, u, hset, hstep⟩ | ⟨hclear, -⟩ | ⟨hclear, -⟩ | ⟨hclear, -⟩
  · cases hset.symm.trans h
    exact hstep
  all_goals cases hclear.symm.trans h

/-- A step that stops leaves the host the state it had. -/
theorem transactWith_next_of_fault {sta : Option Config.FreeOpcode} {s : State} {a w : Word}
    (h : stepWith sta s = .fault (.decodeError a w)) : transactWith sta .next s = (s, .decodeError a w) := by
  simp only [transactWith, h]

/-- Settles O26: the step stops on the set latch, and `next` passes on what it stopped with. -/
theorem faultedStepOnlyReports : Obligations.FaultedStepOnlyReports := by
  intro s a w h
  have hstep := stepWith_of_latch_set Config.staOpcode h
  exact ⟨hstep, transactWith_next_of_fault hstep⟩

/-! ### NOP (42_step_cycle.md R149) -/

/-- The fields of a NOP do not matter: its effect reads neither x nor the operand. -/
theorem exec_ofFields_nop (m : Mode) (x y : Int) (z : Word) (s : State) :
    exec (Instr.ofFields .nop m x y z) s = .next s := by
  rw [exec_ofFields, opcodeEffect, noEffect]

/-- Settles O54: a NOP of any mode is that of the fields 0. -/
theorem nopChangesNothing : Obligations.NopChangesNothing :=
  fun s z => ⟨exec_ofFields_nop .registerRegister 0 0 z s, exec_ofFields_nop .shortImmediate 0 0 z s,
    exec_ofFields_nop .wordImmediate 0 0 z s⟩

end Sys2Proof.Machine
end

section
/-! PROOFS of the statements of 43_data_movement.md: the memory a step leaves as it was, the optional store, and MOV, LOD
and CMP in their three addressing modes. -/

namespace Sys2Proof

/-! ### The sign of a difference -/

theorem sgn_eq_zero_iff (n : Int) : sgn n = .zero ↔ n = 0 := by
  rw [← Int.sign_eq_zero_iff_zero, ← sgn_val]
  exact ⟨congrArg Trit.val, fun h => Trit.val_injective h⟩

end Sys2Proof

namespace Sys2Proof.Machine

/-- The difference is exact: no multiple of 19683 makes two different words compare equal (43_data_movement.md R163). -/
theorem compareFlag_eq_zero_iff (a b : Word) : compareFlag a b = .zero ↔ a = b := by
  rw [compareFlag, sgn_eq_zero_iff, sub_eq_zero]
  exact ⟨fun h => Word.val_injective h, congrArg Word.val⟩

/-! ### The short immediate -/

/-- The operand of the two trits p q is those trits, padded (30_encoding.md R59). -/
theorem shortWord_digitsToInt (p q : Trit) : shortWord (digitsToInt [p, q]) = ext9 [p, q] :=
  congrArg ext9 (lowTrits_digitsToInt [p, q])

/-- Padding with zero trits keeps the value. -/
theorem shortWord_eq_wordOf {imm : Int} (h : inField2 imm) : shortWord imm = wordOf imm := by
  obtain ⟨hlow, hhigh⟩ : -4 ≤ imm ∧ imm ≤ 4 := h
  have hmax : maxOfWidth 2 = 4 := by decide
  have hvalue : (shortWord imm).val = imm := by
    rw [shortWord, val_ext9_of_length_le (by rw [lowTrits_length]; decide),
      digitsToInt_lowTrits_of_range (by omega) (by omega)]
  rw [← wordOf_val (shortWord imm), hvalue]

/-! ### The three addressing modes (42_step_cycle.md R145) -/

/-- What holds of an effect on every operand holds of its mnemonic in all three modes: each mode gives the effect an operand
whose value is the mode's src. -/
theorem inAllModes_runsTo {rr : Reg → Instr} {si : Int → Instr} {wi : Word → Instr} {s : State} {Q : Word → State → Prop}
    (effect : Operand → State)
    (hrr : ∀ y, exec (rr y) s = .next (effect (.reg y)))
    (hsi : ∀ imm, exec (si imm) s = .next (effect (.short imm)))
    (hwi : ∀ z, exec (wi z) s = .next (effect (.word z)))
    (h : ∀ a, Q (s.src a) (effect a)) :
    inAllModes rr si wi s fun i src => runsTo i s (Q src) := by
  refine ⟨fun y => ⟨_, hrr y, h (.reg y)⟩, fun p q => ⟨_, hsi _, ?_⟩, fun z => ⟨_, hwi z, h (.word z)⟩⟩
  rw [← shortWord_digitsToInt]
  exact h (.short _)

/-! ### MOV, LOD, CMP (43_data_movement.md R160, R161, R163) -/

/-- Settles O51: every mode of MOV is `moveInto` of its operand. -/
theorem movCopiesTheOperand : Obligations.MovCopiesTheOperand := fun s x =>
  inAllModes_runsTo (moveInto x · s) (fun _ => rfl) (fun _ => rfl) (fun _ => rfl) fun a => moveInto_spec x a s

/-- Settles O52: every mode of LOD is `loadInto` of its operand. -/
theorem lodLoadsTheAddressedCell : Obligations.LodLoadsTheAddressedCell := fun s x =>
  inAllModes_runsTo (loadInto x · s) (fun _ => rfl) (fun _ => rfl) (fun _ => rfl) fun a => loadInto_spec x a s

/-- Settles O53: every mode of CMP is `compareWith` of its operand, and the sign of a difference of words is 0 only where
they are one word. -/
theorem cmpRecordsTheSignOfTheDifference : Obligations.CmpRecordsTheSignOfTheDifference := fun s x =>
  inAllModes_runsTo (compareWith x · s) (fun _ => rfl) (fun _ => rfl) (fun _ => rfl) fun a =>
    have ⟨hsign, hframe⟩ := compareWith_spec x a s
    ⟨hsign, compareFlag_eq_zero_iff (s.reg x) (s.src a), hframe⟩

/-! ### No store in the base machine (43_data_movement.md R164) -/

/-- Settles O29: neither the DecodeError nor the pc advance nor one of the five effects writes memory. -/
theorem noStepWritesMemory : Obligations.NoStepWritesMemory := by
  intro s t h
  rcases step_cases s with ⟨a, w, -, hstep⟩ | ⟨-, -, hstep⟩ | ⟨-, i, -, hstep⟩
  · cases hstep.symm.trans h
  · cases hstep.symm.trans h
    exact State.mem_setLatch ..
  · rw [(effect_of_exec (hstep.symm.trans h)).mem_eq, State.mem_advancePc]

/-! ### The optional store (43_data_movement.md R164) -/

theorem decodeSta_of_slot {k : Config.FreeOpcode} {w : Word} {m : Mode} (hop : opcodeField w = k.code)
    (hmode : Mode.ofCode (modeField w) = some m) (z : Word) :
    decodeSta (some k) w z = some (Reg.ofSelector (xField w), operandOf m (yField w) z) := by
  simp only [decodeSta, hop, hmode, if_true]

theorem decodeSta_of_not_slot {k : Config.FreeOpcode} {w : Word}
    (h : opcodeField w ≠ k.code ∨ Mode.ofCode (modeField w) = none) (z : Word) : decodeSta (some k) w z = none := by
  rcases decodeSta_cases (some k) w z with ⟨l, m, hl, hop, hmode, -⟩ | hnone
  · cases hl
    rcases h with hop' | hmode'
    · exact absurd hop hop'
    · cases hmode.symm.trans hmode'
  · exact hnone

@[simp] theorem State.src_advancePc (s : State) (n : Int) (a : Operand) : (s.advancePc n).src a = s.src a := by
  cases a <;> rfl

theorem Operand.length_operandOf (m : Mode) (y : Int) (z : Word) : (operandOf m y z).length = m.length := by
  cases m <;> rfl

/-- The one case of `stepWith_cases` left where the latch is clear and the words at the pc are a store. -/
theorem stepWith_of_decodeSta {sta : Option Config.FreeOpcode} {s : State} {x : Reg} {a : Operand}
    (hlatch : s.latch = .clear) (hsta : decodeSta sta s.fetchWord s.secondWord = some (x, a)) :
    stepWith sta s = .next (storeFrom x a (s.advancePc a.length)) := by
  rcases stepWith_cases sta s with
    ⟨b, w, hset, -⟩ | ⟨-, -, hnone, -⟩ | ⟨-, x', a', hsome, hstep⟩ | ⟨-, hnone, -⟩
  · cases hset.symm.trans hlatch
  · cases hnone.symm.trans hsta
  · cases hsome.symm.trans hsta
    exact hstep
  · cases hnone.symm.trans hsta

/-- `next` reports what the latch of the next state stands for. -/
theorem transactWith_next_of_next {sta : Option Config.FreeOpcode} {s t : State} (h : stepWith sta s = .next t) :
    transactWith sta .next s = (t, t.latch.report) := by
  simp only [transactWith, h]

/-- The store reads its register and its address after the pc advance, which changes neither. -/
theorem mem_storeFrom_advancePc (x : Reg) (a : Operand) (s : State) (n : Int) :
    (storeFrom x a (s.advancePc n)).mem = s.mem.store (s.reg x) (s.src a) := by
  rw [storeFrom, State.mem_setMem, State.mem_advancePc, State.reg_advancePc, State.src_advancePc]

theorem latch_storeFrom_advancePc (x : Reg) (a : Operand) (s : State) (n : Int) :
    (storeFrom x a (s.advancePc n)).latch = s.latch := by
  rw [storeFrom, State.latch_setMem, State.latch_advancePc]

/-- Settles O34: the word at the pc is a store of its x register at the operand of its mode, and the store leaves the latch
clear. -/
theorem configuredStoreWritesOneCell : Obligations.ConfiguredStoreWritesOneCell := by
  intro k s m hlatch hop hmode
  have hstep := stepWith_of_decodeSta hlatch (decodeSta_of_slot hop hmode s.secondWord)
  rw [Operand.length_operandOf] at hstep
  have hnext := transactWith_next_of_next hstep
  rw [latch_storeFrom_advancePc, hlatch] at hnext
  refine ⟨_, hstep, ?_, rfl, rfl, rfl, hlatch, hnext⟩
  rw [mem_storeFrom_advancePc]
  cases m with
  | registerRegister => rfl
  | shortImmediate => exact congrArg _ (shortWord_eq_wordOf (yField_range _))
  | wordImmediate => rfl

/-- STA_OPCODE enters a step by what the optional decode answers. -/
theorem stepWith_congr {sta sta' : Option Config.FreeOpcode} {s : State}
    (h : decodeSta sta s.fetchWord s.secondWord = decodeSta sta' s.fetchWord s.secondWord) :
    stepWith sta s = stepWith sta' s := by
  simp only [stepWith, fetchDecode, h]

/-- STA_OPCODE enters a transaction by the step. -/
theorem transactWith_congr {sta sta' : Option Config.FreeOpcode} {s : State} (h : stepWith sta s = stepWith sta' s)
    (t : Transaction) : transactWith sta t s = transactWith sta' t s := by
  cases t with
  | next => simp only [transactWith, h]
  | load | store | reset => rfl

/-- Settles O35: outside its slot the optional decode answers none, as it always does in the base machine. -/
theorem configuredStoreTouchesNoOtherOpcode : Obligations.ConfiguredStoreTouchesNoOtherOpcode := by
  intro k s h
  have hstep : stepWith (some k) s = step s := stepWith_congr (decodeSta_of_not_slot h s.secondWord)
  exact ⟨hstep, transactWith_congr hstep⟩

end Sys2Proof.Machine
end

section
/-! PROOFS of the statements of 44_alu_instructions.md: each of the thirteen ALU mnemonics runs in all three addressing modes
as `aluInto` of its ALU function, so the value or the trits of that function's word are what its statement needs. -/

namespace Sys2Proof.Machine

/-! ### The carry and the trit tables (41_alu_functions.md R115, R116, R117, R124) -/

/-- Only a sum out of a word's range carries, and then by one multiple of 19683. -/
theorem val_add_val_eq_carry_mul_add_wrap (a b : Word) :
    a.val + b.val = (Alu.addWithCarry a b).val * 19683 + wrap (a.val + b.val) := by
  obtain ⟨halow, hahigh⟩ := a.val_range
  obtain ⟨hblow, hbhigh⟩ := b.val_range
  rw [Alu.val_addWithCarry]
  split
  case isTrue =>
    have hwrap : wrap (a.val + b.val) = a.val + b.val - 19683 := wrap_unique (c := 1) (by ring) (by omega) (by omega)
    omega
  case isFalse =>
    split
    case isTrue =>
      have hwrap : wrap (a.val + b.val) = a.val + b.val + 19683 := wrap_unique (c := -1) (by ring) (by omega) (by omega)
      omega
    case isFalse =>
      have hwrap : wrap (a.val + b.val) = a.val + b.val := wrap_of_range (by omega) (by omega)
      omega

theorem val_trit_consensus (a b : Word) {i : Nat} (hi : i < 9) :
    ((Alu.consensus a b).trit i).val = if a.trit i = b.trit i then (b.trit i).val else 0 := by
  rw [Alu.consensus, Alu.trit_perTrit _ _ _ hi, Alu.consensusTrit_val]

theorem val_trit_union (a b : Word) {i : Nat} (hi : i < 9) :
    ((Alu.union a b).trit i).val = Int.sign ((a.trit i).val + (b.trit i).val) := by
  rw [Alu.union, Alu.trit_perTrit _ _ _ hi, Alu.unionTrit_val]

theorem val_trit_xor (a b : Word) {i : Nat} (hi : i < 9) :
    ((Alu.xor a b).trit i).val = if (a.trit i).val * (b.trit i).val = 0 then (a.trit i).val + (b.trit i).val else 0 := by
  rw [Alu.xor, Alu.trit_perTrit _ _ _ hi, Alu.xorTrit_val]

/-! ### The shared effect (44_alu_instructions.md R170) -/

/-- A mnemonic whose three modes are `aluInto f x` has every property that follows from x holding `f x src` with nothing
else changed. -/
theorem inAllModes_aluInto {rr : Reg → Instr} {si : Int → Instr} {wi : Word → Instr} {s : State} {x : Reg}
    {Q : Word → State → Prop} (f : Word → Word → Word)
    (hrr : ∀ y, exec (rr y) s = .next (aluInto f x (.reg y) s))
    (hsi : ∀ imm, exec (si imm) s = .next (aluInto f x (.short imm) s))
    (hwi : ∀ z, exec (wi z) s = .next (aluInto f x (.word z) s))
    (h : ∀ src t, t.reg x = f (s.reg x) src → changesOnlyReg x s t → Q src t) :
    inAllModes rr si wi s fun i src => runsTo i s (Q src) :=
  inAllModes_runsTo (aluInto f x · s) hrr hsi hwi fun a =>
    have ⟨hx, hframe⟩ := aluInto_spec f x a s
    h _ _ hx hframe

/-! ### ADD, ADDC, MUL, DIV, MOD, NEG (44_alu_instructions.md R171 to R176) -/

/-- Settles O41, by the value of the ALU's sum. -/
theorem addWritesTheWrappedSum : Obligations.AddWritesTheWrappedSum := fun s x =>
  inAllModes_aluInto Alu.add (fun _ => rfl) (fun _ => rfl) (fun _ => rfl) fun src _ hx hframe =>
    ⟨hx ▸ Alu.val_add (s.reg x) src, hframe⟩

/-- Settles O42, by the value of the carry and its share of the exact sum. -/
theorem addcWritesTheCarryOut : Obligations.AddcWritesTheCarryOut := fun s x =>
  inAllModes_aluInto Alu.addWithCarry (fun _ => rfl) (fun _ => rfl) (fun _ => rfl) fun src _ hx hframe =>
    ⟨hx ▸ Alu.val_addWithCarry (s.reg x) src, hx ▸ val_add_val_eq_carry_mul_add_wrap (s.reg x) src, hframe⟩

/-- Settles O43, by the value of the ALU's product. -/
theorem mulWritesTheWrappedProduct : Obligations.MulWritesTheWrappedProduct := fun s x =>
  inAllModes_aluInto Alu.multiply (fun _ => rfl) (fun _ => rfl) (fun _ => rfl) fun src _ hx hframe =>
    ⟨hx ▸ Alu.val_multiply (s.reg x) src, hframe⟩

/-- Settles O44, by the value of the ALU's quotient. -/
theorem divWritesTheTruncatedQuotient : Obligations.DivWritesTheTruncatedQuotient := fun s x =>
  inAllModes_aluInto Alu.divide (fun _ => rfl) (fun _ => rfl) (fun _ => rfl) fun src _ hx hframe =>
    ⟨hx ▸ Alu.val_divide (s.reg x) src, hframe⟩

/-- Settles O45, by the value of the ALU's remainder. -/
theorem modWritesTheTruncatedRemainder : Obligations.ModWritesTheTruncatedRemainder := fun s x =>
  inAllModes_aluInto Alu.modulo (fun _ => rfl) (fun _ => rfl) (fun _ => rfl) fun src _ hx hframe =>
    ⟨hx ▸ Alu.val_modulo (s.reg x) src, hframe⟩

/-- Settles O46: a word negated trit by trit has the negated value. -/
theorem negWritesTheNegatedOperand : Obligations.NegWritesTheNegatedOperand := fun s x =>
  inAllModes_aluInto Alu.negate (fun _ => rfl) (fun _ => rfl) (fun _ => rfl) fun src _ hx hframe =>
    ⟨hx ▸ Alu.val_negate (s.reg x) src, hframe⟩

/-! ### MIN, MAX, CON, ANY, XOR (44_alu_instructions.md R177 to R180, R183) -/

/-- Settles O47, by the trits of the two words. -/
theorem minAndMaxWriteTheLesserAndGreaterTrits : Obligations.MinAndMaxWriteTheLesserAndGreaterTrits := fun s x =>
  ⟨inAllModes_aluInto Alu.min (fun _ => rfl) (fun _ => rfl) (fun _ => rfl) fun src _ hx hframe =>
      ⟨fun _ hk => hx ▸ val_trit_min (s.reg x) src hk, hframe⟩,
    inAllModes_aluInto Alu.max (fun _ => rfl) (fun _ => rfl) (fun _ => rfl) fun src _ hx hframe =>
      ⟨fun _ hk => hx ▸ val_trit_max (s.reg x) src hk, hframe⟩⟩

/-- Settles O48, by the tables of the three functions at one position. -/
theorem conAnyXorWriteTheirTritTables : Obligations.ConAnyXorWriteTheirTritTables := fun s x =>
  ⟨inAllModes_aluInto Alu.consensus (fun _ => rfl) (fun _ => rfl) (fun _ => rfl) fun src _ hx hframe =>
      ⟨fun _ hk => hx ▸ val_trit_consensus (s.reg x) src hk, hframe⟩,
    inAllModes_aluInto Alu.union (fun _ => rfl) (fun _ => rfl) (fun _ => rfl) fun src _ hx hframe =>
      ⟨fun _ hk => hx ▸ val_trit_union (s.reg x) src hk, hframe⟩,
    inAllModes_aluInto Alu.xor (fun _ => rfl) (fun _ => rfl) (fun _ => rfl) fun src _ hx hframe =>
      ⟨fun _ hk => hx ▸ val_trit_xor (s.reg x) src hk, hframe⟩⟩

/-! ### RSH, USH (44_alu_instructions.md R181, R182) -/

/-- Settles O49, by the index each trit of a rotation comes from. -/
theorem rshRotatesTheTrits : Obligations.RshRotatesTheTrits := fun s x =>
  inAllModes_aluInto Alu.rotateShift (fun _ => rfl) (fun _ => rfl) (fun _ => rfl) fun src _ hx hframe =>
    ⟨fun _ hk => hx ▸ Alu.trit_rotateShift (s.reg x) src hk, hframe⟩

/-- Settles O50, by the index each trit of a shift comes from. -/
theorem ushShiftsTheTrits : Obligations.UshShiftsTheTrits := fun s x =>
  inAllModes_aluInto Alu.unsignedShift (fun _ => rfl) (fun _ => rfl) (fun _ => rfl) fun src _ hx hframe =>
    ⟨fun _ hk => hx ▸ Alu.trit_unsignedShift (s.reg x) src hk, hframe⟩

end Sys2Proof.Machine
end

section
/-! PROOFS of the statements of 45_control_flow.md: JMP and JAL in their three addressing modes, the value of CF each branch
tests, and the branch a comparison decides. -/

namespace Sys2Proof

theorem Trit.val_inj (p q : Trit) : p.val = q.val ↔ p = q :=
  ⟨fun h => Trit.val_injective h, congrArg Trit.val⟩

end Sys2Proof

namespace Sys2Proof.Machine

/-! ### JMP, JAL (45_control_flow.md R191, R195) -/

/-- Settles O55: every mode of JMP is `jumpTo` of its operand. -/
theorem jmpReplacesThePc : Obligations.JmpReplacesThePc := fun s =>
  inAllModes_runsTo (jumpTo · s) (fun _ => rfl) (fun _ => rfl) (fun _ => rfl) fun a => jumpTo_spec a s

/-- Settles O57: every mode of JAL is `jumpAndLink` of its operand, which reads the target before it writes ra. -/
theorem jalLinksAndJumps : Obligations.JalLinksAndJumps := fun s =>
  inAllModes_runsTo (jumpAndLink · s) (fun _ => rfl) (fun _ => rfl) (fun _ => rfl) fun a => jumpAndLink_spec a s

/-! ### BEQ, BGT, BLT (45_control_flow.md R192, R193, R194) -/

theorem State.flagEqual_iff (s : State) : s.flagEqual = true ↔ s.cf.val = 0 :=
  decide_eq_true_iff.trans (Trit.val_inj s.cf .zero).symm

theorem State.flagGreater_iff (s : State) : s.flagGreater = true ↔ s.cf.val = 1 :=
  decide_eq_true_iff.trans (Trit.val_inj s.cf .pos).symm

theorem State.flagLess_iff (s : State) : s.flagLess = true ↔ s.cf.val = -1 :=
  decide_eq_true_iff.trans (Trit.val_inj s.cf .neg).symm

/-- In all three modes the branch completes from s, goes to its target exactly if c holds, and changes nothing but the pc. -/
def jumpsExactlyIf (rr : Reg → Instr) (si : Int → Instr) (wi : Word → Instr) (s : State) (c : Prop) [Decidable c] : Prop :=
  inAllModes rr si wi s fun i target =>
    runsTo i s fun t => t.pc = (if c then target else s.pc) ∧ changesOnlyPc s t

theorem jumpsExactlyIf_of_branchIf {rr : Reg → Instr} {si : Int → Instr} {wi : Word → Instr} {s : State} {c : Prop}
    [Decidable c] {taken : Bool} (htaken : taken = true ↔ c)
    (hrr : ∀ y, exec (rr y) s = .next (branchIf taken (.reg y) s))
    (hsi : ∀ imm, exec (si imm) s = .next (branchIf taken (.short imm) s))
    (hwi : ∀ z, exec (wi z) s = .next (branchIf taken (.word z) s)) : jumpsExactlyIf rr si wi s c :=
  inAllModes_runsTo (branchIf taken · s) hrr hsi hwi fun a =>
    have ⟨hpc, hframe⟩ := branchIf_spec taken a s
    ⟨hpc.trans (if_congr htaken rfl rfl), hframe⟩

section
variable {s : State} {c : Prop} [Decidable c]

theorem beq_jumpsExactlyIf (h : s.cf.val = 0 ↔ c) : jumpsExactlyIf .beqRR .beqSI .beqWI s c :=
  jumpsExactlyIf_of_branchIf (s.flagEqual_iff.trans h) (fun _ => rfl) (fun _ => rfl) (fun _ => rfl)

theorem bgt_jumpsExactlyIf (h : s.cf.val = 1 ↔ c) : jumpsExactlyIf .bgtRR .bgtSI .bgtWI s c :=
  jumpsExactlyIf_of_branchIf (s.flagGreater_iff.trans h) (fun _ => rfl) (fun _ => rfl) (fun _ => rfl)

theorem blt_jumpsExactlyIf (h : s.cf.val = -1 ↔ c) : jumpsExactlyIf .bltRR .bltSI .bltWI s c :=
  jumpsExactlyIf_of_branchIf (s.flagLess_iff.trans h) (fun _ => rfl) (fun _ => rfl) (fun _ => rfl)

end

/-- Settles O56: each branch with its own test of CF as the condition. -/
theorem branchesTestTheFlag : Obligations.BranchesTestTheFlag := fun _ =>
  ⟨beq_jumpsExactlyIf Iff.rfl, bgt_jumpsExactlyIf Iff.rfl, blt_jumpsExactlyIf Iff.rfl⟩

/-! ### A comparison and the branch after it (43_data_movement.md R163) -/

/-- Settles O58: the CF a CMP leaves is the sign of the exact difference, and each value of that sign is one order of the
compared values. -/
theorem comparedValuesDecideTheBranch : Obligations.ComparedValuesDecideTheBranch := fun s x =>
  inAllModes_runsTo (compareWith x · s) (fun _ => rfl) (fun _ => rfl) (fun _ => rfl) fun a u hu => by
    obtain ⟨hsign, -⟩ := compareWith_spec x a s
    have hcf : u.cf.val = Int.sign ((s.reg x).val - (s.src a).val) := hu ▸ hsign
    refine ⟨beq_jumpsExactlyIf ?_, bgt_jumpsExactlyIf ?_, blt_jumpsExactlyIf ?_⟩
    · rw [hcf, Int.sign_eq_zero_iff_zero, sub_eq_zero]
    · rw [hcf, Int.sign_eq_one_iff_pos, sub_pos, gt_iff_lt]
    · rw [hcf, Int.sign_eq_neg_one_iff_neg, sub_neg]

end Sys2Proof.Machine
end

section
/-! PROOFS of the statements of 60_exceptions.md: the DecodeError of an illegal word, the steps that answer a next state,
and the FAULT latch that reset alone clears. -/

namespace Sys2Proof.Machine

/-! ### The FAULT latch outlives every transaction but reset (60_exceptions.md R203) -/

/-- From s to t nothing changes but memory. -/
def changesOnlyMem (s t : State) : Prop :=
  t.latch = s.latch ∧ t.regs = s.regs ∧ t.pc = s.pc ∧ t.cf = s.cf

theorem changesOnlyMem_refl (s : State) : changesOnlyMem s s :=
  ⟨rfl, rfl, rfl, rfl⟩

theorem changesOnlyMem_setMem (s : State) (m : Memory) : changesOnlyMem s (s.setMem m) :=
  ⟨State.latch_setMem s m, State.regs_setMem s m, State.pc_setMem s m, State.cf_setMem s m⟩

theorem changesOnlyMem.trans {s t u : State} (hst : changesOnlyMem s t) (htu : changesOnlyMem t u) :
    changesOnlyMem s u := by
  obtain ⟨hlatch, hregs, hpc, hcf⟩ := hst
  obtain ⟨hlatch', hregs', hpc', hcf'⟩ := htu
  exact ⟨hlatch'.trans hlatch, hregs'.trans hregs, hpc'.trans hpc, hcf'.trans hcf⟩

/-- A faulted machine has no next state (42_step_cycle.md R141), so a transaction other than reset can only store. -/
theorem changesOnlyMem_transactWith {s : State} {a w : Word} {t : Transaction} (sta : Option Config.FreeOpcode)
    (hlatch : s.latch = .set a w) (ht : t ≠ .reset) : changesOnlyMem s (transactWith sta t s).1 := by
  rcases transactWith_state sta t s with hsame | ⟨v, b, hstore⟩ | hnext | ⟨hreset, -⟩
  · rw [hsame]
    exact changesOnlyMem_refl s
  · rw [hstore]
    exact changesOnlyMem_setMem s _
  · cases (stepWith_of_latch_set sta hlatch).symm.trans hnext
  · exact absurd hreset ht

/-- The set latch is itself among what a transaction keeps, so the next transaction finds the machine faulted too. -/
theorem changesOnlyMem_transactAllWith {s : State} {a w : Word} {ts : List Transaction} (sta : Option Config.FreeOpcode)
    (hlatch : s.latch = .set a w) (hts : .reset ∉ ts) : changesOnlyMem s (transactAllWith sta ts s).1 := by
  refine transactAllWith_induction (fun t ht u hu => ?_) (changesOnlyMem_refl s)
  have ⟨hkept, _⟩ := hu
  exact hu.trans (changesOnlyMem_transactWith sta (hkept.trans hlatch) (ne_of_mem_of_not_mem ht hts))

/-- Settles O27: reset answers one state from every state, and without it a faulted machine changes in memory alone. -/
theorem onlyResetClearsTheLatch : Obligations.OnlyResetClearsTheLatch := by
  intro sta ts s a w hlatch
  refine ⟨rfl, fun hts => ?_⟩
  obtain ⟨hlatch', hrest⟩ := changesOnlyMem_transactAllWith sta hlatch hts
  exact ⟨hlatch'.trans hlatch, hrest⟩

/-! ### The DecodeError of an illegal word (60_exceptions.md R202 to R204) -/

/-- The one case of `step_cases` left where the latch is clear and the words at the pc do not decode. -/
theorem step_of_decode_error {s : State} {e : ErrorKind} (hlatch : s.latch = .clear)
    (hdecode : decode s.fetchWord s.secondWord = .error e) : step s = .next (takeDecodeError s s.fetchWord) := by
  rcases step_cases s with ⟨a, w, hset, -⟩ | ⟨-, -, hstep⟩ | ⟨-, i, hi, -⟩
  · cases hset.symm.trans hlatch
  · exact hstep
  · cases hi.symm.trans hdecode

theorem decode_of_illegal_fields {w : Word}
    (h : opcodeField w = -12 ∨ 10 ≤ opcodeField w ∨ modeField w < 0 ∨ 2 < modeField w) (z : Word) :
    decode w z = .error .decodeError := by
  have hdecode := decodeFailsExactlyOnIllegalFields w z
  rwa [if_pos (or_assoc.mpr h)] at hdecode

/-- Settles O25: the illegal fields do not decode, and `next` reports what the latch then holds. -/
theorem illegalWordTakesTheDecodeError : Obligations.IllegalWordTakesTheDecodeError := by
  intro s hlatch hillegal
  have hstep := step_of_decode_error hlatch (decode_of_illegal_fields hillegal s.secondWord)
  exact ⟨hstep, transactWith_next_of_next hstep⟩

/-! ### The execute phase does not fail (60_exceptions.md R201) -/

/-- Settles O28: of what a step can do, the optional store and the instructions answer a next state with the latch as it
was, and the DecodeError is the one that sets it. -/
theorem clearLatchStepAlwaysAnswersNext : Obligations.ClearLatchStepAlwaysAnswersNext := by
  intro sta s hlatch
  rcases stepWith_cases sta s with
    ⟨a, w, hset, -⟩ | ⟨-, hillegal, -, hstep⟩ | ⟨-, x, o, -, hstep⟩ | ⟨-, -, i, -, hstep⟩
  · cases hset.symm.trans hlatch
  · exact ⟨_, hstep, .inr hillegal⟩
  · exact ⟨_, hstep, .inl ((latch_storeFrom_advancePc ..).trans hlatch)⟩
  · obtain ⟨t, hexec, heffect⟩ := exec_cases i (s.advancePc i.length)
    refine ⟨t, hstep.trans hexec, .inl ?_⟩
    rw [heffect.latch_eq, State.latch_advancePc, hlatch]

end Sys2Proof.Machine
end

section
/-! PROOFS of the statements of 70_reset_and_hazards.md: the invariant over the host's transactions, and what a HostStore
changes. -/

namespace Sys2Proof.Machine

/-! ### The invariant over the host's transactions (70_reset_and_hazards.md R238 to R240) -/

/-- The latch's claim is about the pc and the recorded word, so other memory in canonical form does not touch it. -/
theorem State.sound_setMem {s : State} {m : Memory} (hs : s.sound) (hm : m.wf) : (s.setMem m).sound := by
  obtain ⟨-, hlatch⟩ := hs
  exact ⟨hm, hlatch⟩

/-- After reset no cell is listed and no error is recorded. -/
theorem State.sound_reset : State.reset.sound :=
  State.sound_of_latch_clear Memory.wf_reset rfl

/-- Of what a transaction can do to the state, the store and the step keep the invariant, and the reset state meets it. -/
theorem sound_transactWith {s : State} (sta : Option Config.FreeOpcode) (t : Transaction) (hs : s.sound) :
    (transactWith sta t s).1.sound := by
  rcases transactWith_state sta t s with hsame | ⟨v, a, hstore⟩ | hnext | ⟨-, hreset⟩
  · rwa [hsame]
  · have ⟨hmem, _⟩ := hs
    rw [hstore]
    exact State.sound_setMem hs (Memory.wf_store v a hmem)
  · exact stepKeepsTheStateSound sta s _ hs hnext
  · rw [hreset]
    exact State.sound_reset

/-- Settles O23, by induction on the transactions: each of them keeps the invariant. -/
theorem hostTransactionsKeepTheStateSound : Obligations.HostTransactionsKeepTheStateSound :=
  fun sta _ _ hs => transactAllWith_induction (fun t _ _ hu => sound_transactWith sta t hu) hs

/-! ### One HostStore (70_reset_and_hazards.md R239) -/

/-- A HostLoad of a word reads its cell, whatever the latch holds. -/
theorem transact_load_word (s : State) (a : Word) : transact (.load (.word a)) s = (s, .word (s.mem.load a)) :=
  rfl

/-- Settles O9: the state after the store is `s` with one cell written, and HostLoad reads that cell and the others. -/
theorem hostStoreChangesOneCellOnly : Obligations.HostStoreChangesOneCellOnly := by
  intro s v a
  refine ⟨s.setMem (s.mem.store v a), transact_store_word s v a, ?_, fun b hb => ?_, rfl, rfl, rfl, rfl⟩
  · rw [transact_load_word, State.mem_setMem, Memory.load_store_same]
  · rw [transact_load_word, State.mem_setMem, Memory.load_store_other _ _ hb]

end Sys2Proof.Machine
end

section
/-! PROOFS of the statements of 00_scope.md section 5 and of D27: wrap(n), and the reset state's CF, latch and invariant. -/

namespace Sys2Proof

/-! ### The residue of an integer (00_scope.md section 5) -/

/-- The multiple of 19683 that wrapping takes away is the quotient of `n`, counted from the least word value. -/
theorem eq_quotient_mul_add_wrap (n : Int) :
    n = (n + Config.wordMax) / Config.wordValues * Config.wordValues + wrap n := by
  have hdivision := Int.ediv_mul_add_emod (n + Config.wordMax) Config.wordValues
  unfold wrap
  omega

/-- Settles O5: range and residue are those of the division by 19683, and `wordOf n` is the word of the low nine trits. -/
theorem wrapIsTheValueOfTheLowNineTrits : Obligations.WrapIsTheValueOfTheLowNineTrits := by
  intro n
  obtain ⟨hmin, hmax⟩ := wrap_range n
  exact ⟨hmin, hmax, ⟨_, eq_quotient_mul_add_wrap n⟩, val_wordOf n⟩

end Sys2Proof

namespace Sys2Proof.Machine

/-! ### The reset state (10_state.md section 8, 92_eei_decisions.md D27) -/

@[simp] theorem State.cf_reset : State.reset.cf = .zero := rfl

@[simp] theorem State.latch_reset : State.reset.latch = .clear := rfl

/-- Settles O20: CF is the zero trit and no error is recorded. -/
theorem resetClearsFlagAndLatch : Obligations.ResetClearsFlagAndLatch :=
  ⟨by rw [State.cf_reset, Trit.val_zero], State.latch_reset⟩

/-- Settles O21: the empty memory is in canonical form and the clear latch makes no claim. -/
theorem resetIsSound : Obligations.ResetIsSound :=
  State.sound_reset

end Sys2Proof.Machine
end
